-- ==== Sys2Proof/Word.lean ====
section
/-! DEFINITION. The byte and the message, the two kinds of value the FEU moves (spec 00 R10, R11; 30 R60). -/

namespace Sys2Proof

/-- A byte, 0..255, bit 0 the least significant (R10). -/
abbrev Byte := BitVec 8

/-- A message of the request or the response channel: a finite byte string, delivered with its length,
byte 0 first (R11, R60). -/
abbrev Message := List Byte

end Sys2Proof
end

