-- ==== Sys2Proof/Config.lean ====
section
/-! DEFINITION. What an FEU instance fixes: the parameters of 00 R8, the OPEN ones without a value, the
constants of 00 R9, and the names of the error codes of 60 R200. None of them is state (10 R31). Every instance has these
same parameters: DESIGN CHOICE, unsafe (log 17). -/

namespace Sys2Proof

/-- The two readings of a device id above 0x7F (R8, R153). -/
inductive DevidPolicy where
  | reject
  | mask
  deriving DecidableEq, Repr

/-- The three readings of a payload byte above 0x7F in BLDFRM (R8, R154). -/
inductive PbytePolicy where
  | reject
  | mask
  | pass
  deriving DecidableEq, Repr

/-- The error codes of 60 R200, by name. -/
inductive ErrCode where
  /-- Payload length is not 8 (CKSUM, BLDFRM), or serial count is not 8 (CKFIN). -/
  | eLen
  /-- BLDFRM device id above 0x7F. -/
  | eDevid
  /-- BLDFRM payload byte above 0x7F. -/
  | ePbyte
  /-- Empty request, or reserved opcode. -/
  | eOpc
  /-- Request length wrong for its opcode. -/
  | eFmt
  /-- BLDCOL selector neither 0x00 nor 0x01. -/
  | eSel
  deriving DecidableEq, Repr

namespace Config

/-- DEVID_OOR_POLICY at the value R8 fixes. The operation takes the policy as an argument (log 7). -/
def devidPolicy : DevidPolicy := .reject

/-- PBYTE_POLICY at the value R8 fixes. The operation takes the policy as an argument (log 7). -/
def pbytePolicy : PbytePolicy := .reject

/-- CIN_W (R8): the width of a colour channel operand. -/
abbrev cinW : Nat := 16

/-- CNT_MAX (R8): where the serial byte counter saturates. -/
abbrev cntMax : Nat := 15

/-- OPEN (R8): by how much REQ_MAX exceeds its least legal value. DESIGN CHOICE: this form of an OPEN
parameter, safe (log 6). -/
opaque reqMaxExtra : Nat

/-- OPEN (R8): by how much REQQ_DEPTH exceeds its least legal value (log 6). -/
opaque reqqDepthExtra : Nat

/-- OPEN (R8): by how much RSPQ_DEPTH exceeds its least legal value (log 6). -/
opaque rspqDepthExtra : Nat

/-- LAT (R8): OPEN, and no rule reads it (R260). -/
opaque lat : Nat

/-- REQ_MAX: the longest request the FEU accepts, any integer of at least 10 (R8). -/
def reqMax : Nat := reqMaxExtra + 10

/-- REQQ_DEPTH: the capacity of the request queue, any integer of at least 1 (R8). -/
def reqqDepth : Nat := reqqDepthExtra + 1

/-- RSPQ_DEPTH: the capacity of the response queue, any integer of at least 1 (R8). -/
def rspqDepth : Nat := rspqDepthExtra + 1

/-! The constants of R9. -/

abbrev frameLen : Nat := 16
abbrev payloadLen : Nat := 8
abbrev prefixBytes : List Byte := [0xF0, 0x00, 0x21, 0x10]
abbrev msgType : Byte := 0x77
abbrev term : Byte := 0xF7
abbrev ckSeed : Byte := 8
abbrev ckMult : Nat := 3
abbrev ckMod : Nat := 256
abbrev c1Mark : Byte := 0x04
abbrev c5Mark : Byte := 0x7E
abbrev cpHead : Byte := 0x10
abbrev cpPrimary : Byte := 0x20
abbrev cpRoot : Byte := 0x30
abbrev cpTail : Byte := 0x03

end Config

end Sys2Proof
end

