-- ==== Sys2Proof/Syntax.lean ====
section
/-! DEFINITION. The seven requests of spec/opcode_table.json as one inductive, with decoded operands (30 R62-R64). -/

namespace Sys2Proof

/-- One constructor per row of the opcode table. A colour channel is the integer an S16 operand stands for (R63):
the operations clamp it as an integer (R102), so it is no bit vector here (log 13). -/
inductive Instr where
  /-- ENCCOL r, g, b (R100). -/
  | enccol (r g b : Int)
  /-- CKSUM [p0, ...]: a payload of any length (R121). -/
  | cksum (p : List Byte)
  /-- BLDFRM d, [p0, ...]: device id and a payload of any length (R151). -/
  | bldfrm (d : Byte) (p : List Byte)
  /-- BLDCOL s, r, g, b: selector and colour (R171). -/
  | bldcol (s : Byte) (r g b : Int)
  /-- CKRST (R124). -/
  | ckrst
  /-- CKACC b (R126). -/
  | ckacc (b : Byte)
  /-- CKFIN (R128). -/
  | ckfin
  deriving DecidableEq, Repr

end Sys2Proof
end

