-- ==== Sys2Proof/WellFormed.lean ====
section
/-! DEFINITION. The instructions a request can carry: every channel an S16 value (30 R63; the assembler of R70 refuses
any other). Byte operands and payloads of any length are legal by their type (R64, R69). -/

namespace Sys2Proof

/-- An S16 value: -32768..32767 (R63). -/
def isS16 (v : Int) : Bool := decide (-32768 ≤ v) && decide (v ≤ 32767)

/-- The operand ranges of R63 hold. -/
def Instr.wf : Instr → Bool
  | .enccol r g b => isS16 r && isS16 g && isS16 b
  | .cksum _ => true
  | .bldfrm _ _ => true
  | .bldcol _ r g b => isS16 r && isS16 g && isS16 b
  | .ckrst => true
  | .ckacc _ => true
  | .ckfin => true

end Sys2Proof
end

