-- ==== Sys2Proof/Decode.lean ====
section
/-! DEFINITION. The request decoder of 30 R68, total on every byte string and rejecting by name, and the encoder of the
same formats (R64, R70); then the host's table words laid out as requests. -/

namespace Sys2Proof

/-- The integer whose 16-bit two's-complement big-endian encoding is the byte pair h, l (R12, R44). -/
def sext16 (h l : Byte) : Int := (h ++ l).toInt

/-- The two bytes S16(v), high byte first (R70). -/
def s16Bytes (v : Int) : List Byte :=
  [(BitVec.ofInt Config.cinW v).extractLsb' 8 8, (BitVec.ofInt Config.cinW v).extractLsb' 0 8]

/-- ENCCOL's operands: exactly three S16 pairs (R64). -/
def decodeEnccol : List Byte → Except ErrCode Instr
  | [rh, rl, gh, gl, bh, bl] => .ok (.enccol (sext16 rh rl) (sext16 gh gl) (sext16 bh bl))
  | _ => .error .eFmt

/-- BLDFRM's operands: a device id byte, then the payload (R64). -/
def decodeBldfrm : List Byte → Except ErrCode Instr
  | d :: p => .ok (.bldfrm d p)
  | [] => .error .eFmt

/-- BLDCOL's operands: a selector byte and exactly three S16 pairs (R64). -/
def decodeBldcol : List Byte → Except ErrCode Instr
  | [s, rh, rl, gh, gl, bh, bl] => .ok (.bldcol s (sext16 rh rl) (sext16 gh gl) (sext16 bh bl))
  | _ => .error .eFmt

/-- CKACC's operand: exactly one byte (R64). -/
def decodeCkacc : List Byte → Except ErrCode Instr
  | [b] => .ok (.ckacc b)
  | _ => .error .eFmt

/-- An operation with no operands: exactly the opcode byte (R64). -/
def decodeBare (i : Instr) : List Byte → Except ErrCode Instr
  | [] => .ok i
  | _ :: _ => .error .eFmt

/-- All eight bits of the opcode byte select the operation (R62); the operands are the bytes after it. -/
def decodeOperands (op : Nat) (operands : List Byte) : Except ErrCode Instr :=
  match op with
  | 0x01 => decodeEnccol operands
  | 0x02 => .ok (.cksum operands)
  | 0x03 => decodeBldfrm operands
  | 0x04 => decodeBldcol operands
  | 0x05 => decodeBare .ckrst operands
  | 0x06 => decodeCkacc operands
  | 0x07 => decodeBare .ckfin operands
  | _ => .error .eOpc

/-- The decoder of R68: any byte string to an operation or to E_OPC or E_FMT. -/
def decode : Message → Except ErrCode Instr
  | [] => .error .eOpc
  | op :: operands => decodeOperands op.toNat operands

/-- The request bytes of an instruction (R64, R70). -/
def encode : Instr → Message
  | .enccol r g b => 0x01 :: (s16Bytes r ++ s16Bytes g ++ s16Bytes b)
  | .cksum p => 0x02 :: p
  | .bldfrm d p => 0x03 :: d :: p
  | .bldcol s r g b => 0x04 :: s :: (s16Bytes r ++ s16Bytes g ++ s16Bytes b)
  | .ckrst => [0x05]
  | .ckacc b => [0x06, b]
  | .ckfin => [0x07]

/-! The opcode table numbers a request's bits from the first byte's least significant bit, and gives a row only its
opcode byte. The channel delivers a request's LENGTH beside its bytes (R65), so a table word becomes a request by the
length its opcode's format has; the variable-length CKSUM and BLDFRM get the 8-byte payload of zeros they complete
with. DESIGN CHOICE, safe (log 10). -/

/-- The length of the request a table word stands for, from its opcode byte (R64). -/
def tableLength (op : Nat) : Nat :=
  match op with
  | 0x01 => 7
  | 0x02 => 9
  | 0x03 => 10
  | 0x04 => 8
  | 0x05 => 1
  | 0x06 => 2
  | 0x07 => 1
  | _ => 0

/-- The first `n` bytes of a number, least significant first. -/
def bytesOfNat : Nat → Nat → List Byte
  | 0, _ => []
  | n + 1, w => BitVec.ofNat 8 w :: bytesOfNat n (w / 256)

/-- The request a table word stands for: the word's bytes, the bits above `nbits` zero, up to the length of its
opcode's format or of the word itself, whichever is longer. -/
def tableRequest (nbits w : Nat) : Message :=
  bytesOfNat (max ((nbits + 7) / 8) (tableLength (w % 2 ^ nbits % 256))) (w % 2 ^ nbits)

/-- The instruction the decoder reads from a table word, none where it answers an error. -/
def decodeTableWord (nbits w : Nat) : Option Instr :=
  match decode (tableRequest nbits w) with
  | .ok i => some i
  | .error _ => none

end Sys2Proof
end

