-- ==== Sys2Proof/Machine/State.lean ====
section
/-! DEFINITION. The machine's state as plain data: the four items of 10 R20, and the host agent's side of 60 R214. -/

namespace Sys2Proof.Machine

/-- One move of one of the two agents of R214. -/
inductive Move where
  /-- The FEU takes its turn (70 R244). -/
  | feu
  /-- The host puts a request into REQQ (R220). -/
  | enqueue (q : Message)
  /-- The host takes the head of RSPQ (R220). -/
  | take
  /-- The host asserts reset (70 R240). -/
  | reset
  deriving DecidableEq, Repr

/-- `acc`, `cnt`, `reqq` and `rspq` are the FEU's whole state (R20). `schedule` and `taken` are the model's own, the
host's side of the interface: which agent moves next (log 1), and the responses the host has taken (R221, log 2). -/
structure State where
  /-- ACC, the running-hash accumulator (R22). -/
  acc : BitVec 8
  /-- CNT, the serial byte counter (R23). -/
  cnt : BitVec 4
  /-- REQQ, requests not yet processed, head first (R28). -/
  reqq : List Message
  /-- RSPQ, responses not yet taken, head first (R29). -/
  rspq : List Message
  /-- The moves still to come; once it is empty every turn is the FEU's (R260: an enabled FEU step is taken). -/
  schedule : List Move
  /-- The responses the host has taken, in order (R221). -/
  taken : List Message
  deriving DecidableEq, Repr

/-- Stuck states: a scheduled host move that R214 does not enable. No instruction raises one. -/
inductive Fault where
  /-- Raised by the host's move `enqueue` when REQQ is full: "when REQQ is not full" (R214, R28). Safe: the model
  stops (log 4). -/
  | reqqFull
  /-- Raised by the host's move `take` when RSPQ is empty: "when RSPQ is not empty" (R214). Safe: the model stops
  (log 4). -/
  | rspqEmpty
  deriving DecidableEq, Repr

/-- Where the spec gives no step. -/
inductive Refusal where
  /-- Raised by exec's arm of an instruction that has no meaning yet (none at present). Safe. -/
  | notModelled (mnemonic : String)
  /-- Raised by the host's move `enqueue`, and by the FEU's turn, for a request longer than REQ_MAX: "The FEU's
  behaviour for it is not specified, and a model gives such a request no step" (30 R65; 93 I6). Unsafe only in that no
  host is modelled as going on (log 5). -/
  | requestTooLong
  deriving DecidableEq, Repr

/-- The machine after reset and after power-on (10 R32, 70 R242): ACC = 0x08, CNT = 0, both queues empty. The host's
side starts empty: DESIGN CHOICE, safe (log 1, log 2). -/
def State.reset : State where
  acc := 0x08
  cnt := 0
  reqq := []
  rspq := []
  schedule := []
  taken := []

end Sys2Proof.Machine
end

