-- ==== Sys2Proof/Machine/Flags.lean ====
section
/-! DEFINITION. The FEU has no flags (10 R26): the outcome of an operation stands only in the status byte of its own
response. This file is that byte and the two response forms (30 R66, 60 R200). -/

namespace Sys2Proof.Machine

/-- The status byte of a completed operation (R200). -/
abbrev okStatus : Byte := 0x00

/-- code(E_X) of R200. -/
def errByte : ErrCode → Byte
  | .eLen => 0x01
  | .eDevid => 0x02
  | .ePbyte => 0x03
  | .eOpc => 0x04
  | .eFmt => 0x05
  | .eSel => 0x06

/-- The response of a completed operation: OK, then its data (R66). -/
def okResponse (data : List Byte) : Message := okStatus :: data

/-- The response of an error: exactly the code (R66, R203). -/
def errResponse (e : ErrCode) : Message := [errByte e]

end Sys2Proof.Machine
end

