-- ==== Sys2Proof/Machine/Operands.lean ====
section
/-! DEFINITION. What an operation does with an operand before it computes: the clamp of a colour channel (00 R12), the
7-bit mask of a hashed byte (41 R120), and the increment of the saturating counter (10 R23). U8, S16 and BYTES operands
themselves are read by the decoder (30 R63). -/

namespace Sys2Proof.Machine

/-- `clamp255` (R12, R102): the channel as a byte, never wrapped modulo 256. -/
def clamp255 (v : Int) : Byte :=
  if v < 0 then 0 else if 255 < v then 255 else BitVec.ofNat 8 v.toNat

/-- A byte's low seven bits, `b & 0x7F`. -/
def low7 (b : Byte) : Byte := b &&& 0x7F

/-- `min(CNT + 1, 15)` (R23): the counter saturates and never wraps. -/
def cntSucc (c : BitVec 4) : BitVec 4 := BitVec.ofNat 4 (min (c.toNat + 1) Config.cntMax)

end Sys2Proof.Machine
end

