-- ==== Sys2Proof/Machine/Ops.lean ====
section
/-! DEFINITION. The shared operations on the state: the pseudocode primitives of 00 R13, raising an error (60 R203, the
FEU's only form of an exception; R206: there is no vector, no saved state and no return), and the queues' rules. -/

namespace Sys2Proof.Machine

/-- `ACC <- a`, `CNT <- c`, both at once (R13, R14). -/
def writeSerial (a : BitVec 8) (c : BitVec 4) (s : State) : State := { s with acc := a, cnt := c }

/-- A response enters RSPQ at its tail (R29, R50). -/
def enqueueResponse (a : Message) (s : State) : State := { s with rspq := s.rspq ++ [a] }

/-- `respond(OK, d)` (R13): the operation ends with the response [0x00] ++ d. -/
def respond (data : List Byte) (s : State) : Host.Outcome State Fault Refusal :=
  .next (enqueueResponse (okResponse data) s)

/-- `raise E_X` (R13, R203): the operation ends with the one-byte response [code(E_X)], all state as it was when the
operation began. `s` is that state. -/
def raiseError (e : ErrCode) (s : State) : Host.Outcome State Fault Refusal :=
  .next (enqueueResponse (errResponse e) s)

/-- An operation that only computes: its data, or the error it raises (R33). -/
def finish (r : Except ErrCode (List Byte)) (s : State) : Host.Outcome State Fault Refusal :=
  match r with
  | .ok data => respond data s
  | .error e => raiseError e s

/-- The head request leaves REQQ (R25, R28). -/
def dequeueRequest (s : State) : State := { s with reqq := s.reqq.tail }

/-- RSPQ holds fewer than RSPQ_DEPTH responses (R29). -/
def rspqHasRoom (s : State) : Bool := decide (s.rspq.length < Config.rspqDepth)

/-- REQQ holds fewer than REQQ_DEPTH requests (R28). -/
def reqqHasRoom (s : State) : Bool := decide (s.reqq.length < Config.reqqDepth)

/-- A request is no longer than REQ_MAX (R65). -/
def requestFits (q : Message) : Bool := decide (q.length ≤ Config.reqMax)

/-- The agent whose move is next (R214); an empty schedule leaves every turn to the FEU (log 1). -/
def nextMove (s : State) : Move := s.schedule.headD .feu

/-- Reset is asserted exactly while it is the next move (R240; log 8). -/
def resetAsserted (s : State) : Bool := decide (nextMove s = .reset)

end Sys2Proof.Machine
end

