-- ==== Sys2Proof/Machine/Checksum.lean ====
section
/-! DEFINITION. The checksum generator, CKG: CKSUM, and the serial form CKRST, CKACC, CKFIN (41_checksum.md). -/

namespace Sys2Proof.Machine

/-- One step of the running hash, `(acc*3 + (b & 0x7F)) mod 256` (R120, R126). By this formula bit 7 of `acc` reaches
later bits 7 only (3 * 128 is 128 modulo 256), so no CKFIN response, where 10 R30 says in words that it influences every
later CKFIN result: the formula is followed. DEDUCED, unsafe (log 18). -/
def ckStep (acc : BitVec 8) (b : Byte) : BitVec 8 :=
  BitVec.ofNat 8 ((acc.toNat * Config.ckMult + (low7 b).toNat) % Config.ckMod)

/-- The 8-bit accumulator after the bytes `p`, the first byte first (R120). -/
def ckAcc (p : List Byte) : BitVec 8 := p.foldl ckStep Config.ckSeed

/-- `ck` of R120, which defines it for 8 bytes only; here it is total, and its value at another length, which no operation
asks for, is the model's: DESIGN CHOICE, safe (log 19). -/
def ck (p : List Byte) : Byte := low7 (ckAcc p)

/-- CKSUM (R121). -/
def execCksum (p : List Byte) (s : State) : Host.Outcome State Fault Refusal :=
  if p.length = Config.payloadLen then respond [ck p] s else raiseError .eLen s

/-- CKRST (R124). -/
def execCkrst (s : State) : Host.Outcome State Fault Refusal :=
  respond [] (writeSerial Config.ckSeed 0 s)

/-- CKACC (R126, R127): both registers from the values before the operation (R14). -/
def execCkacc (b : Byte) (s : State) : Host.Outcome State Fault Refusal :=
  respond [] (writeSerial (ckStep s.acc b) (cntSucc s.cnt) s)

/-- CKFIN (R128), non-destructive (R129). It answers ACC's low seven bits, on which ACC's bit 7 never acts (log 18). -/
def execCkfin (s : State) : Host.Outcome State Fault Refusal :=
  if s.cnt.toNat = Config.payloadLen then respond [low7 s.acc] s else raiseError .eLen s

end Sys2Proof.Machine
end

