-- ==== Sys2Proof/Machine/ColorCodec.lean ====
section
/-! DEFINITION. The colour codec unit, CCU: ENCCOL (40_color_codec.md). -/

namespace Sys2Proof.Machine

/-- The five colour bytes of three clamped channels (R100, R103; green's low bit unshifted at bit 0 of C[1], R106;
C[2] = G >> 1, R107; red's bit 7 at bit 0 of C[4], R108). -/
def packColor (r g b : Byte) : List Byte :=
  [ ((b &&& 0x03) <<< 5) ||| Config.c1Mark,
    (b >>> 2) ||| (g &&& 0x01),
    (g >>> 1) &&& 0x7F,
    r &&& 0x7F,
    ((r >>> 7) &&& 0x01) ||| Config.c5Mark ]

/-- The data bytes ENCCOL responds with: each channel clamped independently before any bit is taken (R100, R102). -/
def colorBytes (r g b : Int) : List Byte := packColor (clamp255 r) (clamp255 g) (clamp255 b)

/-- ENCCOL (R100). -/
def execEnccol (r g b : Int) (s : State) : Host.Outcome State Fault Refusal :=
  respond (colorBytes r g b) s

end Sys2Proof.Machine
end

