-- ==== Sys2Proof/Machine/ColorPayload.lean ====
section
/-! DEFINITION. The colour payload builder, CPB: BLDCOL (43_color_payload.md). -/

namespace Sys2Proof.Machine

/-- The command byte K of a selector: 0x00 primary, 0x01 root, any other E_SEL (R170, R171). -/
def selectorByte (s : Byte) : Except ErrCode Byte :=
  if s.toNat = 0 then .ok Config.cpPrimary
  else if s.toNat = 1 then .ok Config.cpRoot
  else .error .eSel

/-- The colour payload of R170. -/
def buildColor (sel : Byte) (r g b : Int) : Except ErrCode (List Byte) :=
  match selectorByte sel with
  | .error e => .error e
  | .ok k => .ok ([Config.cpHead, k] ++ colorBytes r g b ++ [Config.cpTail])

/-- BLDCOL (R171). -/
def execBldcol (sel : Byte) (r g b : Int) (s : State) : Host.Outcome State Fault Refusal :=
  finish (buildColor sel r g b) s

end Sys2Proof.Machine
end

