-- ==== Sys2Proof/Machine/FrameEncoder.lean ====
section
/-! DEFINITION. The frame encoder, FRM: BLDFRM (42_frame_encoder.md). -/

namespace Sys2Proof.Machine

/-- The device id of the frame under a policy (R151, R153). -/
def checkDevid (dp : DevidPolicy) (d : Byte) : Except ErrCode Byte :=
  if 0x7F < d.toNat then
    match dp with
    | .reject => .error .eDevid
    | .mask => .ok (low7 d)
  else .ok d

/-- The payload of the frame under a policy (R151, R154). -/
def checkPayload (pp : PbytePolicy) (p : List Byte) : Except ErrCode (List Byte) :=
  match pp with
  | .reject => if p.any (fun b => decide (0x7F < b.toNat)) then .error .ePbyte else .ok p
  | .mask => .ok (p.map low7)
  | .pass => .ok p

/-- The 16 bytes of R150. -/
def frameBytes (d : Byte) (p : List Byte) : List Byte :=
  Config.prefixBytes ++ [Config.msgType, low7 d] ++ p ++ [ck p, Config.term]

/-- BLDFRM's pseudocode at any policies (R151): the length, then the device id, then the payload bytes (R155). -/
def buildFrame (dp : DevidPolicy) (pp : PbytePolicy) (d : Byte) (p : List Byte) : Except ErrCode (List Byte) :=
  if p.length = Config.payloadLen then
    match checkDevid dp d with
    | .error e => .error e
    | .ok d' =>
      match checkPayload pp p with
      | .error e => .error e
      | .ok p' => .ok (frameBytes d' p')
  else .error .eLen

/-- BLDFRM at the policies of R8 (R151). -/
def execBldfrm (d : Byte) (p : List Byte) (s : State) : Host.Outcome State Fault Refusal :=
  finish (buildFrame Config.devidPolicy Config.pbytePolicy d p) s

end Sys2Proof.Machine
end

