-- ==== Sys2Proof/Machine/Dispatch.lean ====
section
/-! DEFINITION. One arm per constructor of Instr, each one direct call of its meaning. -/

namespace Sys2Proof.Machine

def exec (i : Instr) (s : State) : Host.Outcome State Fault Refusal :=
  match i with
  | .enccol r g b => Sys2Proof.Machine.execEnccol r g b s
  | .cksum p => Sys2Proof.Machine.execCksum p s
  | .bldfrm d p => Sys2Proof.Machine.execBldfrm d p s
  | .bldcol sel r g b => Sys2Proof.Machine.execBldcol sel r g b s
  | .ckrst => Sys2Proof.Machine.execCkrst s
  | .ckacc b => Sys2Proof.Machine.execCkacc b s
  | .ckfin => Sys2Proof.Machine.execCkfin s

end Sys2Proof.Machine
end

