-- ==== Sys2Proof/Machine/Agents.lean ====
section
/-! DEFINITION. The moves of the two agents (60 R214): the FEU's step (70 R244) and the host's enqueue, take and reset. -/

namespace Sys2Proof.Machine

/-- Decode a request that has left REQQ and run it; a decoding error is raised like any other (R68, R203, R244). -/
def processRequest (q : Message) (s : State) : Host.Outcome State Fault Refusal :=
  match decode q with
  | .ok i => exec i s
  | .error e => raiseError e s

/-- The FEU's turn. With a request and room it takes the step of R244; a request longer than REQ_MAX has no step (R65,
log 5); with REQQ empty it is idle and with RSPQ full it holds, nothing changing (R213, R244; DESIGN CHOICE, safe,
log 3). -/
def feuTurn (s : State) : Host.Outcome State Fault Refusal :=
  match s.reqq with
  | [] => .next s
  | q :: _ =>
    if rspqHasRoom s then
      if requestFits q then processRequest q (dequeueRequest s) else .refused .requestTooLong
    else .next s

/-- The host sends a request: of at most REQ_MAX bytes, and only while REQQ has room (R28, R220). Of R220's host duties
only that length is checked; a host that breaches another (a CKRST or CKACC inside another flow's serial sequence, frames
out of order, an error code not acted on) runs on as the FEU's rules say: DEDUCED, safe (log 20). -/
def hostEnqueue (q : Message) (s : State) : Host.Outcome State Fault Refusal :=
  if requestFits q then
    if reqqHasRoom s then .next { s with reqq := s.reqq ++ [q] } else .fault .reqqFull
  else .refused .requestTooLong

/-- The host takes the head of RSPQ (R29, R220). -/
def hostTake (s : State) : Host.Outcome State Fault Refusal :=
  match s.rspq with
  | [] => .fault .rspqEmpty
  | a :: rest => .next { s with rspq := rest, taken := s.taken ++ [a] }

/-- The host asserts reset (R240): ACC and CNT to their reset values, every queued request and every untaken response
discarded, no response. What the host already took and its later moves are not the FEU's (log 9). -/
def assertReset (s : State) : State :=
  { s with acc := State.reset.acc, cnt := State.reset.cnt, reqq := [], rspq := [] }

/-- One agent's move. -/
def runMove (m : Move) (s : State) : Host.Outcome State Fault Refusal :=
  match m with
  | .feu => feuTurn s
  | .enqueue q => hostEnqueue q s
  | .take => hostTake s
  | .reset => .next (assertReset s)

/-- A request put where the FEU's next step takes it from: the head of REQQ, the move the FEU's, and room in RSPQ. The
rest of the state stays; a full RSPQ is emptied, since the FEU would hold (log 10). -/
def placeRequest (q : Message) (s : State) : State :=
  { s with
    reqq := q :: s.reqq.tail
    rspq := if rspqHasRoom s then s.rspq else []
    schedule := if nextMove s = .feu then s.schedule else .feu :: s.schedule }

end Sys2Proof.Machine
end

