-- ==== Sys2Proof/Machine/Step.lean ====
section
/-! DEFINITION. One step of the machine: the next scheduled move, the FEU's turn once the schedule is empty (60 R214, 70
R244, log 1); and the host's placing of one table word where the FEU takes its next request (log 10). -/

namespace Sys2Proof.Machine

def step (s : State) : Host.Outcome State Fault Refusal :=
  runMove (nextMove s) { s with schedule := s.schedule.tail }

def State.withFetchWord (s : State) (nbits w : Nat) : State := placeRequest (tableRequest nbits w) s

end Sys2Proof.Machine
end

