-- ==== Sys2Proof/Machine/Assembler.lean ====
section
/-! DEFINITION. The host's assembler: the syntax of 30 R70 and the macros CKSEQ and COLFRM of R71. It is no part of the
FEU; it says which request bytes a line of assembly stands for. -/

namespace Sys2Proof.Machine

/-- The two commands a colour payload can be (R70, R170). -/
inductive ColorKind where
  | primary
  | root
  deriving DecidableEq, Repr

/-- One line of assembly (R70, R71), its integers not yet checked. -/
inductive AsmLine where
  | enccol (r g b : Int)
  | cksum (p : List Int)
  | bldfrm (d : Int) (p : List Int)
  /-- `BLDCOL PRIMARY, r, g, b` and `BLDCOL ROOT, r, g, b`. -/
  | bldcolNamed (k : ColorKind) (r g b : Int)
  | bldcol (s r g b : Int)
  | ckrst
  | ckacc (b : Int)
  | ckfin
  /-- `RAW b0, b1, ...`: the only way to write an illegal request. -/
  | raw (bs : List Int)
  | ckseq (p : List Int)
  | colfrm (k : ColorKind) (r g b d : Int)
  deriving DecidableEq, Repr

/-- What a line expands to: requests to send in order, or COLFRM's first request together with the device id of the
second, which the host can form only from the first one's response (R71, 70 R252). -/
inductive Expansion where
  | requests (qs : List Message)
  | colorFrame (first : Message) (d : Byte)
  deriving DecidableEq, Repr

/-- A byte operand; the assembler refuses one outside 0..255 (R70). -/
def asmByte (v : Int) : Option Byte :=
  if 0 ≤ v ∧ v ≤ 255 then some (BitVec.ofNat 8 v.toNat) else none

/-- A list of byte operands, of any length (R70). -/
def asmBytes : List Int → Option (List Byte)
  | [] => some []
  | v :: vs =>
    match asmByte v, asmBytes vs with
    | some b, some bs => some (b :: bs)
    | _, _ => none

/-- An instruction's one request; the assembler refuses a channel outside -32768..32767 (R70). -/
def asmInstr (i : Instr) : Option Expansion :=
  if i.wf then some (.requests [encode i]) else none

/-- The selector byte of a command's name (R70). -/
def kindByte : ColorKind → Byte
  | .primary => 0x00
  | .root => 0x01

/-- CKSEQ's ten requests (R71). -/
def ckseqRequests (p : List Byte) : List Message :=
  encode .ckrst :: (p.map fun b => encode (.ckacc b)) ++ [encode .ckfin]

/-- The requests a line stands for, or none where the assembler refuses it (R70, R71). CKSEQ takes exactly 8 bytes:
DEDUCED from the macro's form, safe (log 12). -/
def assemble : AsmLine → Option Expansion
  | .enccol r g b => asmInstr (.enccol r g b)
  | .cksum p => (asmBytes p).bind fun p => asmInstr (.cksum p)
  | .bldfrm d p => (asmByte d).bind fun d => (asmBytes p).bind fun p => asmInstr (.bldfrm d p)
  | .bldcolNamed k r g b => asmInstr (.bldcol (kindByte k) r g b)
  | .bldcol s r g b => (asmByte s).bind fun s => asmInstr (.bldcol s r g b)
  | .ckrst => asmInstr .ckrst
  | .ckacc b => (asmByte b).bind fun b => asmInstr (.ckacc b)
  | .ckfin => asmInstr .ckfin
  | .raw bs => (asmBytes bs).map fun q => .requests [q]
  | .ckseq p =>
    (asmBytes p).bind fun p => if p.length = 8 then some (.requests (ckseqRequests p)) else none
  | .colfrm k r g b d =>
    (asmByte d).bind fun d =>
      if (Instr.bldcol (kindByte k) r g b).wf then
        some (.colorFrame (encode (.bldcol (kindByte k) r g b)) d)
      else none

/-- COLFRM's second request, from the response to its first: the 8 data bytes of an OK response framed for the device
(R71); none where that response is an error (log 12). -/
def colorFrameSecond (d : Byte) : Message → Option Message
  | [] => none
  | status :: data =>
    if status.toNat = 0 ∧ data.length = 8 then some (encode (.bldfrm d data)) else none

/-! The text form. The spec gives each line's shape and that integers are decimal or 0x hexadecimal; what separates the
words is the model's: DESIGN CHOICE, safe (log 11). -/

/-- The fixed words of the syntax. -/
inductive Keyword where
  | enccol | cksum | bldfrm | bldcol | ckrst | ckacc | ckfin | raw | ckseq | colfrm | primary | root
  deriving DecidableEq, Repr

inductive Token where
  | word (k : Keyword)
  | num (v : Int)
  | comma
  | lbrack
  | rbrack
  deriving DecidableEq, Repr

def keywordTable : List (List Char × Keyword) :=
  [ (['E', 'N', 'C', 'C', 'O', 'L'], .enccol),
    (['C', 'K', 'S', 'U', 'M'], .cksum),
    (['B', 'L', 'D', 'F', 'R', 'M'], .bldfrm),
    (['B', 'L', 'D', 'C', 'O', 'L'], .bldcol),
    (['C', 'K', 'R', 'S', 'T'], .ckrst),
    (['C', 'K', 'A', 'C', 'C'], .ckacc),
    (['C', 'K', 'F', 'I', 'N'], .ckfin),
    (['R', 'A', 'W'], .raw),
    (['C', 'K', 'S', 'E', 'Q'], .ckseq),
    (['C', 'O', 'L', 'F', 'R', 'M'], .colfrm),
    (['P', 'R', 'I', 'M', 'A', 'R', 'Y'], .primary),
    (['R', 'O', 'O', 'T'], .root) ]

/-- The value of a digit character, hexadecimal digits in either case. -/
def digitValue (c : Char) : Option Nat :=
  let n := c.toNat
  if 48 ≤ n ∧ n ≤ 57 then some (n - 48)
  else if 65 ≤ n ∧ n ≤ 70 then some (n - 55)
  else if 97 ≤ n ∧ n ≤ 102 then some (n - 87)
  else none

/-- Digits in a base, most significant first, after the value `acc`. -/
def digitsValue (base : Nat) : Nat → List Char → Option Nat
  | acc, [] => some acc
  | acc, c :: cs =>
    match digitValue c with
    | some d => if d < base then digitsValue base (acc * base + d) cs else none
    | none => none

/-- A decimal or 0x hexadecimal number (R70). -/
def natValue : List Char → Option Nat
  | [] => none
  | '0' :: 'x' :: d :: ds => digitsValue 16 0 (d :: ds)
  | d :: ds => digitsValue 10 0 (d :: ds)

/-- A number with an optional minus sign (the syntax's own example is `ENCCOL -5, 300, 128`, R72). -/
def intValue : List Char → Option Int
  | '-' :: ds => (natValue ds).map fun n => -(n : Int)
  | ds => (natValue ds).map fun n => (n : Int)

/-- The token of a run of characters between separators. -/
def wordToken (w : List Char) : Option Token :=
  match keywordTable.find? (fun e => e.1 == w) with
  | some e => some (.word e.2)
  | none => (intValue w).map .num

/-- The tokens that end a run: a separator closes the word read so far. -/
def flushWord (cur : List Char) (rest : Option (List Token)) : Option (List Token) :=
  match cur with
  | [] => rest
  | _ :: _ =>
    match wordToken cur.reverse, rest with
    | some t, some ts => some (t :: ts)
    | _, _ => none

/-- The tokens of a line; `cur` is the word being read, last character first. Blanks separate and mean nothing else. -/
def tokens : List Char → List Char → Option (List Token)
  | cur, [] => flushWord cur (some [])
  | cur, c :: cs =>
    if c = ' ' ∨ c = '\t' then flushWord cur (tokens [] cs)
    else if c = ',' then flushWord cur ((tokens [] cs).map (Token.comma :: ·))
    else if c = '[' then flushWord cur ((tokens [] cs).map (Token.lbrack :: ·))
    else if c = ']' then flushWord cur ((tokens [] cs).map (Token.rbrack :: ·))
    else tokens (c :: cur) cs

/-- One or more integers with commas between them, up to the end of the line. -/
def commaList : List Token → Option (List Int)
  | [.num v] => some [v]
  | .num v :: .comma :: rest => (commaList rest).map (v :: ·)
  | _ => none

/-- The rest of a bracketed payload list, of any length (R70). -/
def bracketList (ts : List Token) : Option (List Int) :=
  match ts.reverse with
  | [.rbrack] => some []
  | .rbrack :: before => commaList before.reverse
  | _ => none

/-- The word PRIMARY or ROOT. -/
def colorKind : Keyword → Option ColorKind
  | .primary => some .primary
  | .root => some .root
  | _ => none

/-- The line a token list is (R70, R71), none where it has none of the forms. -/
def parseTokens : List Token → Option AsmLine
  | [.word .enccol, .num r, .comma, .num g, .comma, .num b] => some (.enccol r g b)
  | .word .cksum :: .lbrack :: ts => (bracketList ts).map .cksum
  | .word .bldfrm :: .num d :: .comma :: .lbrack :: ts => (bracketList ts).map (.bldfrm d)
  | [.word .bldcol, .word k, .comma, .num r, .comma, .num g, .comma, .num b] =>
    (colorKind k).map fun k => .bldcolNamed k r g b
  | [.word .bldcol, .num s, .comma, .num r, .comma, .num g, .comma, .num b] => some (.bldcol s r g b)
  | [.word .ckrst] => some .ckrst
  | [.word .ckacc, .num b] => some (.ckacc b)
  | [.word .ckfin] => some .ckfin
  | [.word .raw] => some (.raw [])
  | .word .raw :: ts => (commaList ts).map .raw
  | .word .ckseq :: .lbrack :: ts => (bracketList ts).map .ckseq
  | [.word .colfrm, .word k, .comma, .num r, .comma, .num g, .comma, .num b, .comma, .num d] =>
    (colorKind k).map fun k => .colfrm k r g b d
  | _ => none

/-- The assembler on a line of text. -/
def assembleText (line : List Char) : Option Expansion :=
  ((tokens [] line).bind parseTokens).bind assemble

end Sys2Proof.Machine
end

