-- ==== Sys2Proof/Machine/Instances.lean ====
section
/-! DEFINITION. Several FEU instances (60 R211): each has its own registers and queues, none sees another, one moves at a
time. -/

namespace Sys2Proof.Machine

/-- The instance number `k` takes a step; every other instance stays as it is. A number that names no instance moves
nothing (log 14). Every instance runs under the one Config, so all have the same REQ_MAX, REQQ_DEPTH, RSPQ_DEPTH and
policies: DESIGN CHOICE, unsafe. 10 R31 fixes the parameters for an FEU instance and no rule says whether instances may
differ (log 17). -/
def stepInstance (k : Nat) (feus : List State) : Host.Outcome (List State) Fault Refusal :=
  match feus[k]? with
  | none => .next feus
  | some s =>
    match step s with
    | .next t => .next (feus.set k t)
    | .fault r => .fault r
    | .refused r => .refused r

end Sys2Proof.Machine
end

