-- ==== Sys2Proof/Machine/Reference.lean ====
section
/-! DEFINITION. The spec's two reference functions, which are no FEU operations: decodeColor (40 R105) and isFrame
(42 R158). -/

namespace Sys2Proof.Machine

/-- The reference inverse of R105: red, green and blue of five colour bytes, each 0..127. R105 defines it on those alone;
for a wrong length or a byte above 0x7F the model answers none: DESIGN CHOICE, safe (log 19). -/
def decodeColor : List Byte → Option (Byte × Byte × Byte)
  | [c0, c1, c2, c3, c4] =>
    if [c0, c1, c2, c3, c4].all (fun c => decide (c.toNat ≤ 0x7F)) then
      some (c3 ||| ((c4 &&& 0x01) <<< 7),
        (c2 <<< 1) ||| (c1 &&& 0x01),
        ((c1 &&& 0x3F) <<< 2) ||| ((c0 >>> 5) &&& 0x03))
    else none
  | _ => none

/-- The reference predicate of R158. -/
def isFrame (f : List Byte) : Bool :=
  decide (f.length = Config.frameLen) &&
  decide (f.take 4 = Config.prefixBytes) &&
  decide (f.getD 4 0 = Config.msgType) &&
  decide ((f.getD 5 0).toNat ≤ 0x7F) &&
  ((f.drop 6).take 8).all (fun b => decide (b.toNat ≤ 0x7F)) &&
  decide (f.getD 14 0 = ck ((f.drop 6).take 8)) &&
  decide (f.getD 15 0 = Config.term)

end Sys2Proof.Machine
end

