-- ==== Sys2Proof/Safety.lean ====
section
/-! DEFINITION. The words claims use: what a legal response is, the invariant of a machine the host treats within its
duties, what a request's answer is, the whole course of responses, and the end of a run. -/

namespace Sys2Proof.Machine

/-- A response the FEU can give: an error code alone, or OK with the data of one of the seven operations, every byte in
0..127 but a frame's first and last (30 R66, R67; 20 R47; 60 R200). -/
def isResponse : Message → Bool
  | [] => false
  | status :: data =>
    if status.toNat = 0 then
      isFrame data ||
        (decide (data.length ∈ [0, 1, 5, 8]) && data.all (fun b => decide (b.toNat ≤ 0x7F)))
    else data.isEmpty && decide (status.toNat ≤ 6)

/-- Both queues within their capacities (10 R28, R29), every queued request within REQ_MAX (30 R65), every response
given so far a legal one. -/
structure State.Inv (s : State) : Prop where
  reqqCap : s.reqq.length ≤ Config.reqqDepth
  rspqCap : s.rspq.length ≤ Config.rspqDepth
  requestsFit : ∀ q ∈ s.reqq, requestFits q = true
  rspqLegal : ∀ a ∈ s.rspq, isResponse a = true
  takenLegal : ∀ a ∈ s.taken, isResponse a = true

/-- The response to a request and the serial registers after it, from the request, ACC and CNT alone (70 R244). -/
def serve (q : Message) (a : BitVec 8) (c : BitVec 4) : Message × BitVec 8 × BitVec 4 :=
  match processRequest q { State.reset with acc := a, cnt := c } with
  | .next t => (t.rspq.headD [], t.acc, t.cnt)
  | .fault _ => ([], a, c)
  | .refused _ => ([], a, c)

/-- The responses to requests served in order, each seeing the registers the one before left (20 R50). -/
def serveAll : List Message → BitVec 8 → BitVec 4 → List Message
  | [], _, _ => []
  | q :: qs, a, c => (serve q a c).1 :: serveAll qs (serve q a c).2.1 (serve q a c).2.2

/-- ACC and CNT after requests served in order. -/
def serialAfter : List Message → BitVec 8 → BitVec 4 → BitVec 8 × BitVec 4
  | [], a, c => (a, c)
  | q :: qs, a, c => serialAfter qs (serve q a c).2.1 (serve q a c).2.2

/-- Every response of a run, past and still owed: those taken, those waiting, and those the queued requests will get. -/
def State.history (s : State) : List Message :=
  s.taken ++ s.rspq ++ serveAll s.reqq s.acc s.cnt

/-- `n` steps, stopping at the first fault or refusal: what `Host.Core.run` does for this machine. -/
def runSteps : Nat → State → Host.Outcome State Fault Refusal
  | 0, s => .next s
  | n + 1, s =>
    match step s with
    | .next t => runSteps n t
    | .fault r => .fault r
    | .refused r => .refused r

/-- A run has ended: both queues empty and no reset in progress (60 R221). -/
def runEnded (s : State) : Bool := s.reqq.isEmpty && s.rspq.isEmpty && !resetAsserted s

/-- A run's result: the responses the host took, in order, and the final ACC and CNT (60 R221). -/
def runResult (s : State) : List Message × BitVec 8 × BitVec 4 := (s.taken, s.acc, s.cnt)

/-- The host sends each request, lets the FEU take one turn, and takes the response, before it sends the next. -/
def sendEach (qs : List Message) : List Move := qs.flatMap fun q => [.enqueue q, .feu, .take]

/-- The FEU's own four items agree: two states that differ at most on the host's side (10 R20). -/
def SameFeu (s t : State) : Prop := t.acc = s.acc ∧ t.cnt = s.cnt ∧ t.reqq = s.reqq ∧ t.rspq = s.rspq

/-- A safe step: it stops neither on a fault nor on a refusal. -/
def StepsSafely (s : State) : Prop := ∃ t, step s = .next t

/-- The value of an S16 operand in plain arithmetic (00 R12). -/
def s16Value (h l : Byte) : Int :=
  if 0x80 ≤ h.toNat then (h.toNat * 256 + l.toNat : Int) - 65536 else (h.toNat * 256 + l.toNat : Int)

/-- `clamp255` in plain arithmetic (00 R12). -/
def clampNat (v : Int) : Nat := (max 0 (min 255 v)).toNat

/-- The running hash of 41 R120 in plain arithmetic, from an accumulator, over bytes in order. -/
def hashFrom (acc : Nat) (p : List Byte) : Nat := p.foldl (fun a b => (a * 3 + b.toNat % 128) % 256) acc

/-- The instructions that write ACC and CNT (10 R24). -/
def writesHash : Instr → Bool
  | .ckrst => true
  | .ckacc _ => true
  | .enccol _ _ _ => false
  | .cksum _ => false
  | .bldfrm _ _ => false
  | .bldcol _ _ _ _ => false
  | .ckfin => false

/-- The instructions that neither read nor write ACC or CNT (10 R33). -/
def isStateless : Instr → Bool
  | .enccol _ _ _ => true
  | .cksum _ => true
  | .bldfrm _ _ => true
  | .bldcol _ _ _ _ => true
  | .ckrst => false
  | .ckacc _ => false
  | .ckfin => false

/-- A byte string whose every byte is in 0..127. -/
def AllSevenBit (p : List Byte) : Prop := ∀ b ∈ p, b.toNat ≤ 0x7F

/-- The next move is the FEU's, and the FEU may step: room in RSPQ and a head request within REQ_MAX (70 R244, 30 R65). -/
def FeuReady (s : State) (q : Message) (rest : List Message) : Prop :=
  s.reqq = q :: rest ∧ nextMove s = .feu ∧ s.rspq.length < Config.rspqDepth ∧ q.length ≤ Config.reqMax

end Sys2Proof.Machine
end

