-- ==== Sys2Proof/Certificates/Slice0/Obligations.lean ====
section
/-! DEFINITION. The statements for the provers, one per entry of OBLIGATIONS.json. Each docstring names the rule of spec/
it formalises. -/

open Sys2Proof Sys2Proof.Machine

/-! Requests and their encoding (30_encoding.md) -/

/-- 30 R72, and V5: words written out from R64 decode to the instruction they stand for. -/
def Obligations.WrittenOutRequestsDecode : Prop :=
  decode [0x01, 0xFF, 0xFB, 0x01, 0x2C, 0x00, 0x80] = .ok (.enccol (-5) 300 128) ∧
  decode [0x02, 0x10, 0x30, 0x03] = .ok (.cksum [0x10, 0x30, 0x03]) ∧
  decode [0x03, 0x05, 0x10, 0x30] = .ok (.bldfrm 0x05 [0x10, 0x30]) ∧
  decode [0x04, 0x01, 0x80, 0x00, 0x7F, 0xFF, 0x00, 0x07] = .ok (.bldcol 0x01 (-32768) 32767 7) ∧
  decode [0x05] = .ok .ckrst ∧
  decode [0x06, 0x7F] = .ok (.ckacc 0x7F) ∧
  decode [0x07] = .ok .ckfin

/-- 30 R62: all eight bits of the opcode byte select the operation; the other opcodes are reserved. -/
def Obligations.OpcodeByteSelectsOperation : Prop :=
  ∀ (op : Byte) (x : List Byte),
    (op.toNat = 1 → (∃ r g b, decode (op :: x) = .ok (.enccol r g b)) ∨ decode (op :: x) = .error .eFmt) ∧
    (op.toNat = 2 → ∃ p, decode (op :: x) = .ok (.cksum p)) ∧
    (op.toNat = 3 → (∃ d p, decode (op :: x) = .ok (.bldfrm d p)) ∨ decode (op :: x) = .error .eFmt) ∧
    (op.toNat = 4 → (∃ k r g b, decode (op :: x) = .ok (.bldcol k r g b)) ∨ decode (op :: x) = .error .eFmt) ∧
    (op.toNat = 5 → decode (op :: x) = .ok .ckrst ∨ decode (op :: x) = .error .eFmt) ∧
    (op.toNat = 6 → (∃ b, decode (op :: x) = .ok (.ckacc b)) ∨ decode (op :: x) = .error .eFmt) ∧
    (op.toNat = 7 → decode (op :: x) = .ok .ckfin ∨ decode (op :: x) = .error .eFmt) ∧
    (op.toNat = 0 ∨ 8 ≤ op.toNat → decode (op :: x) = .error .eOpc)

/-- 30 R63 (and the layouts of R64): how each operation's operands are read; a channel is an S16 in plain arithmetic, high
byte first, in -32768..32767. -/
def Obligations.RequestLayoutsDecode : Prop :=
  (∀ h l : Byte, -32768 ≤ s16Value h l ∧ s16Value h l ≤ 32767) ∧
  (∀ rh rl gh gl bh bl : Byte, decode [0x01, rh, rl, gh, gl, bh, bl] =
    .ok (.enccol (s16Value rh rl) (s16Value gh gl) (s16Value bh bl))) ∧
  (∀ p : List Byte, decode (0x02 :: p) = .ok (.cksum p)) ∧
  (∀ (d : Byte) (p : List Byte), decode (0x03 :: d :: p) = .ok (.bldfrm d p)) ∧
  (∀ k rh rl gh gl bh bl : Byte, decode [0x04, k, rh, rl, gh, gl, bh, bl] =
    .ok (.bldcol k (s16Value rh rl) (s16Value gh gl) (s16Value bh bl))) ∧
  decode [0x05] = .ok .ckrst ∧
  (∀ b : Byte, decode [0x06, b] = .ok (.ckacc b)) ∧
  decode [0x07] = .ok .ckfin

/-- 30 R68, R69: which requests decoding rejects, and by which name; no other name is used. -/
def Obligations.DecodeErrorsExactly : Prop :=
  ∀ q : Message,
    (decode q = .error .eOpc ↔ q = [] ∨ (q.headD 0).toNat = 0 ∨ 8 ≤ (q.headD 0).toNat) ∧
    (decode q = .error .eFmt ↔
      ((q.headD 0).toNat = 1 ∧ q.length ≠ 7) ∨ ((q.headD 0).toNat = 3 ∧ q.length < 2) ∨
      ((q.headD 0).toNat = 4 ∧ q.length ≠ 8) ∨ ((q.headD 0).toNat = 5 ∧ q.length ≠ 1) ∨
      ((q.headD 0).toNat = 6 ∧ q.length ≠ 2) ∨ ((q.headD 0).toNat = 7 ∧ q.length ≠ 1)) ∧
    (∀ e, decode q = .error e → e = .eOpc ∨ e = .eFmt)

/-- 30 R64, R70: decoding an instruction's request gives it back, every operand at every value. -/
def Obligations.DecodeOfEncode : Prop :=
  ∀ i : Instr, i.wf = true → decode (encode i) = .ok i

/-- 30 R68: a request that decodes is the encoding of the instruction it decodes to, so no bit of it is dropped, and
that instruction is well formed. -/
def Obligations.EncodeOfDecode : Prop :=
  ∀ (q : Message) (i : Instr), decode q = .ok i → encode i = q ∧ i.wf = true

/-! The step, the queues and reset (10_state.md, 20_memory.md, 60_exceptions.md, 70_reset_and_hazards.md) -/

/-- 70 R244: the FEU's step on a request that decodes is exec of the instruction, the request dequeued and the turn
taken off the schedule. -/
def Obligations.StepRunsTheDecodedRequest : Prop :=
  ∀ (s : State) (q : Message) (rest : List Message) (i : Instr),
    FeuReady s q rest → decode q = .ok i →
      step s = exec i { s with reqq := rest, schedule := s.schedule.tail }

/-- 70 R244: on its turn the FEU steps exactly when REQQ is not empty and RSPQ has room, and while reset is asserted no
request is answered; its step depends on the request, ACC and CNT alone (`serve`, decoding and running it, sees nothing
else), dequeues the request and enqueues one response. The model's own: a turn is a move of the schedule and is spent
(log 1), the request is within REQ_MAX (30 R65, in `FeuReady`; a longer one is refused, log 5), and reset is asserted
while it is the next move (log 8). -/
def Obligations.FeuStepIsAFunctionOfRequestAndRegisters : Prop :=
  ∀ s : State,
    (∀ q rest, FeuReady s q rest →
      step s = .next { s with
        acc := (serve q s.acc s.cnt).2.1, cnt := (serve q s.acc s.cnt).2.2, reqq := rest,
        rspq := s.rspq ++ [(serve q s.acc s.cnt).1], schedule := s.schedule.tail }) ∧
    (∀ t, nextMove s = .feu → s.reqq = [] ∨ Config.rspqDepth ≤ s.rspq.length → step s = .next t → SameFeu s t) ∧
    (∀ t, nextMove s = .reset → step s = .next t → t.rspq = [])

/-- 60 R213, 70 R244: an idle FEU (REQQ empty) or one that holds (RSPQ full) keeps its state. That such a turn answers a
next state, the schedule's move spent, is the model's choice (log 3). -/
def Obligations.IdleOrHeldTurnChangesNothing : Prop :=
  ∀ s : State, nextMove s = .feu → s.reqq = [] ∨ Config.rspqDepth ≤ s.rspq.length →
    step s = .next { s with schedule := s.schedule.tail }

/-- 30 R65, 93 I6: a request longer than REQ_MAX has no step, neither the host's sending it nor the FEU's taking it. That
"no step" is a refusal is the model's choice (log 5). -/
def Obligations.OversizedRequestHasNoStep : Prop :=
  ∀ (s : State) (q : Message), Config.reqMax < q.length →
    (nextMove s = .enqueue q → step s = .refused .requestTooLong) ∧
    (∀ rest, s.reqq = q :: rest → nextMove s = .feu → s.rspq.length < Config.rspqDepth →
      step s = .refused .requestTooLong)

/-- 10 R28, R29 and 60 R214: requests enter REQQ at its tail, and only while it has room, and leave from its head in the
FEU's step; responses enter RSPQ at its tail, only while it has room, and the host takes the head. That the step stops
(is not StepsSafely) on a scheduled enqueue into a full REQQ, or a take from an empty RSPQ, is the model's choice (log 4):
R214 only says that such a move is not enabled, and a host that waits would meet it too. The schedule is log 1's and
`taken` log 2's. -/
def Obligations.QueueDisciplines : Prop :=
  ∀ s : State,
    (∀ q, nextMove s = .enqueue q → q.length ≤ Config.reqMax →
      (s.reqq.length < Config.reqqDepth →
        step s = .next { s with reqq := s.reqq ++ [q], schedule := s.schedule.tail }) ∧
      (Config.reqqDepth ≤ s.reqq.length → ¬ StepsSafely s)) ∧
    (nextMove s = .take →
      (∀ a rest, s.rspq = a :: rest →
        step s = .next { s with rspq := rest, taken := s.taken ++ [a], schedule := s.schedule.tail }) ∧
      (s.rspq = [] → ¬ StepsSafely s)) ∧
    (∀ q rest, FeuReady s q rest → ∃ t a, step s = .next t ∧ t.reqq = rest ∧ t.rspq = s.rspq ++ [a]) ∧
    (∀ t, nextMove s = .feu → Config.rspqDepth ≤ s.rspq.length → step s = .next t → SameFeu s t)

/-- 10 R32: the reset values, the same after a reset at any time, and the same registers as after CKRST. The host's own
fields at reset are the model's (log 1, log 2), and so is a reset at any time as one move of the schedule (log 8). -/
def Obligations.ResetValues : Prop :=
  State.reset.acc.toNat = 0x08 ∧ State.reset.cnt.toNat = 0 ∧ State.reset.reqq = [] ∧ State.reset.rspq = [] ∧
  (∀ s t, nextMove s = .reset → step s = .next t →
    t.acc.toNat = 0x08 ∧ t.cnt.toNat = 0 ∧ t.reqq = [] ∧ t.rspq = []) ∧
  (∀ s t, exec .ckrst s = .next t → t.acc = State.reset.acc ∧ t.cnt = State.reset.cnt)

/-- 70 R240: reset is one action between FEU steps: ACC and CNT, every queued request and every untaken response; no
response is produced. The model's own: the host keeps what it took (log 9, DEDUCED), and the reset is one move of the
schedule, spent by it (log 1, log 8). -/
def Obligations.ResetIsOneAction : Prop :=
  ∀ s : State, nextMove s = .reset →
    step s = .next { s with acc := 0x08, cnt := 0, reqq := [], rspq := [], schedule := s.schedule.tail }

/-- 70 R253: after a reset no response is owed: whatever was queued or untaken is never answered. That the course of
responses is then exactly what the host had taken needs reset to leave `taken` as it was, which is the model's reading
(log 9, DEDUCED). -/
def Obligations.ResetOwesNoResponse : Prop :=
  ∀ s t : State, nextMove s = .reset → step s = .next t → t.history = s.taken

/-! The operations: what each answers, in the FEU's plain arithmetic (40_color_codec.md to 43_color_payload.md) -/

/-- 40 R100, R102, R107, R108: ENCCOL's request, and what it does: it clamps each channel and answers the five bytes;
nothing else changes. -/
def Obligations.EnccolResponds : Prop :=
  (∀ rh rl gh gl bh bl : Byte, decode [0x01, rh, rl, gh, gl, bh, bl] =
    .ok (.enccol (s16Value rh rl) (s16Value gh gl) (s16Value bh bl))) ∧
  (∀ x : List Byte, x.length ≠ 6 → decode (0x01 :: x) = .error .eFmt) ∧
  ∀ (r g b : Int) (s : State), (Instr.enccol r g b).wf = true → s.rspq.length < Config.rspqDepth →
    exec (.enccol r g b) s = .next { s with rspq := s.rspq ++ [[0x00,
      BitVec.ofNat 8 (clampNat b % 4 * 32 + 4),
      BitVec.ofNat 8 (clampNat b / 4 ||| clampNat g % 2),
      BitVec.ofNat 8 (clampNat g / 2),
      BitVec.ofNat 8 (clampNat r % 128),
      BitVec.ofNat 8 (clampNat r / 128 + 0x7E)]] }

/-- 41 R121 (with the hash of R120): CKSUM's request, and what it does: it answers the running hash of an 8-byte payload, and E_LEN for any
other; nothing else changes. -/
def Obligations.CksumResponds : Prop :=
  (∀ p : List Byte, decode (0x02 :: p) = .ok (.cksum p)) ∧
  ∀ (p : List Byte) (s : State), s.rspq.length < Config.rspqDepth →
    (p.length = 8 →
      exec (.cksum p) s = .next { s with rspq := s.rspq ++ [[0x00, BitVec.ofNat 8 (hashFrom 8 p % 128)]] }) ∧
    (p.length ≠ 8 → exec (.cksum p) s = .next { s with rspq := s.rspq ++ [[0x01]] })

/-- 41 R124: CKRST's request, and what it does from any state; after reset it leaves the registers as they are. -/
def Obligations.CkrstResponds : Prop :=
  (∀ x : List Byte, decode (0x05 :: x) = if x = [] then .ok .ckrst else .error .eFmt) ∧
  (∀ s : State, s.rspq.length < Config.rspqDepth →
    exec .ckrst s = .next { s with acc := 8, cnt := 0, rspq := s.rspq ++ [[0x00]] }) ∧
  State.reset.acc = 8 ∧ State.reset.cnt = 0

/-- 41 R126: CKACC's request, and what it does: both registers from their values before it. -/
def Obligations.CkaccResponds : Prop :=
  (∀ b : Byte, decode [0x06, b] = .ok (.ckacc b)) ∧
  (∀ x : List Byte, x.length ≠ 1 → decode (0x06 :: x) = .error .eFmt) ∧
  ∀ (b : Byte) (s : State), s.rspq.length < Config.rspqDepth →
    exec (.ckacc b) s = .next { s with
      acc := BitVec.ofNat 8 ((s.acc.toNat * 3 + b.toNat % 128) % 256),
      cnt := BitVec.ofNat 4 (min (s.cnt.toNat + 1) 15),
      rspq := s.rspq ++ [[0x00]] }

/-- 41 R128: CKFIN's request, and what it does: it answers ACC's low seven bits when CNT is 8 and E_LEN otherwise; nothing
else changes. -/
def Obligations.CkfinResponds : Prop :=
  (∀ x : List Byte, decode (0x07 :: x) = if x = [] then .ok .ckfin else .error .eFmt) ∧
  ∀ s : State, s.rspq.length < Config.rspqDepth →
    (s.cnt.toNat = 8 →
      exec .ckfin s = .next { s with rspq := s.rspq ++ [[0x00, BitVec.ofNat 8 (s.acc.toNat % 128)]] }) ∧
    (s.cnt.toNat ≠ 8 → exec .ckfin s = .next { s with rspq := s.rspq ++ [[0x01]] })

/-- 42 R150 (and R151): BLDFRM answers the 16-byte frame when its operands pass every check; nothing else changes. -/
def Obligations.BldfrmResponds : Prop :=
  ∀ (d : Byte) (p : List Byte) (s : State), p.length = 8 → d.toNat ≤ 0x7F → AllSevenBit p →
    s.rspq.length < Config.rspqDepth →
    exec (.bldfrm d p) s = .next { s with rspq := s.rspq ++
      [[0x00, 0xF0, 0x00, 0x21, 0x10, 0x77, d] ++ p ++ [BitVec.ofNat 8 (hashFrom 8 p % 128), 0xF7]] }

/-- 42 R155: BLDFRM's checks, the first that fails reported: length, device id, payload bytes. -/
def Obligations.BldfrmCheckOrder : Prop :=
  ∀ (d : Byte) (p : List Byte) (s : State), s.rspq.length < Config.rspqDepth →
    (p.length ≠ 8 → exec (.bldfrm d p) s = .next { s with rspq := s.rspq ++ [[0x01]] }) ∧
    (p.length = 8 → 0x7F < d.toNat → exec (.bldfrm d p) s = .next { s with rspq := s.rspq ++ [[0x02]] }) ∧
    (p.length = 8 → d.toNat ≤ 0x7F → ¬ AllSevenBit p →
      exec (.bldfrm d p) s = .next { s with rspq := s.rspq ++ [[0x03]] })

/-- 43 R170, R171: BLDCOL wraps exactly the data bytes ENCCOL answers for the same channels; selector 0 is primary, 1 is
root (the pairing is the spec's own reading, 92 D10); nothing else changes. -/
def Obligations.BldcolResponds : Prop :=
  ∀ (k : Byte) (r g b : Int) (s : State), (Instr.bldcol k r g b).wf = true → k.toNat ≤ 1 →
    s.rspq.length < Config.rspqDepth →
    ∃ C : List Byte, C.length = 5 ∧
      exec (.enccol r g b) s = .next { s with rspq := s.rspq ++ [0x00 :: C] } ∧
      exec (.bldcol k r g b) s = .next { s with rspq := s.rspq ++
        [[0x00, 0x10, if k.toNat = 0 then 0x20 else 0x30] ++ C ++ [0x03]] }

/-- 43 R171: any other selector answers E_SEL. -/
def Obligations.BldcolRefusesOtherSelectors : Prop :=
  ∀ (k : Byte) (r g b : Int) (s : State), (Instr.bldcol k r g b).wf = true → 2 ≤ k.toNat →
    s.rspq.length < Config.rspqDepth →
    exec (.bldcol k r g b) s = .next { s with rspq := s.rspq ++ [[0x06]] }

/-! The frame of the operations -/

/-- 10 R33: ENCCOL, CKSUM, BLDFRM and BLDCOL neither read nor write ACC or CNT, and answer from their operands alone: one
response, the same in every state. Only the other three can touch ACC and CNT, and of those CKFIN writes neither. That exec
appends the response also where RSPQ is full, a state in which no step runs it, is the model's choice (log 16). -/
def Obligations.StatelessOperationsArePure : Prop :=
  ∀ i : Instr,
    (isStateless i = true →
      ∃ a : Message, ∀ s : State, exec i s = .next { s with rspq := s.rspq ++ [a] }) ∧
    (∀ s t : State, exec i s = .next t → t.acc ≠ s.acc ∨ t.cnt ≠ s.cnt → i = .ckrst ∨ ∃ b, i = .ckacc b)

/-- 60 R206, 20 R47: every operation, at every operand, ends in one response at RSPQ's tail; REQQ, what RSPQ already held,
and the host's side are unchanged, and ACC and CNT are unless the operation is CKRST or CKACC. -/
def Obligations.OperationFrame : Prop :=
  ∀ (i : Instr) (s : State), s.rspq.length < Config.rspqDepth →
    ∃ t a, exec i s = .next t ∧ a ≠ [] ∧ t.rspq = s.rspq ++ [a] ∧ t.reqq = s.reqq ∧
      t.schedule = s.schedule ∧ t.taken = s.taken ∧
      (writesHash i = false → t.acc = s.acc ∧ t.cnt = s.cnt)

/-- 20 R47, 30 R66: the length of a response is fixed by its operation, and an error's is one byte. -/
def Obligations.ResponseLengths : Prop :=
  ∀ (i : Instr) (s t : State), exec i s = .next t →
    ∃ st data, t.rspq = s.rspq ++ [st :: data] ∧
      (st.toNat ≠ 0 → data = []) ∧
      (st.toNat = 0 → data.length =
        match i with
        | .enccol _ _ _ => 5
        | .cksum _ => 1
        | .bldfrm _ _ => 16
        | .bldcol _ _ _ _ => 8
        | .ckrst => 0
        | .ckacc _ => 0
        | .ckfin => 1)

/-! Errors (60_exceptions.md) -/

/-- 60 R203: the response to a request that raises an error is its code alone; ACC, CNT and the rest of the state are as
before the request, which is removed; and the FEU goes on: after the host takes the code, its next turn serves the next
request from the registers the failing one found, whatever moves are scheduled after that turn. The model's own: the turn
spends a move of the schedule, and the going on is said of a schedule of moves (log 1); both requests are within REQ_MAX
(30 R65, log 5), and the response taken stands in `taken` (log 2). -/
def Obligations.ErrorsChangeNothingElse : Prop :=
  ∀ (s : State) (q : Message) (rest : List Message),
    FeuReady s q rest → ((serve q s.acc s.cnt).1.headD 0).toNat ≠ 0 →
      ∃ code : Byte, 1 ≤ code.toNat ∧ code.toNat ≤ 6 ∧ (serve q s.acc s.cnt).1 = [code] ∧
        step s = .next { s with reqq := rest, rspq := s.rspq ++ [[code]], schedule := s.schedule.tail } ∧
        (∀ q' rest' later, rest = q' :: rest' → s.rspq = [] → s.schedule = .feu :: .take :: .feu :: later →
          q'.length ≤ Config.reqMax →
          ∃ t : State, runSteps 3 s = .next t ∧ t.reqq = rest' ∧ t.taken = s.taken ++ [[code]] ∧
            t.rspq = [(serve q' s.acc s.cnt).1])

/-- 60 R204: an empty request or a reserved opcode before anything else, then the length, then the operation's own checks
in their order; one code answers. -/
def Obligations.ErrorPriority : Prop :=
  ∀ (q : Message) (a : BitVec 8) (c : BitVec 4),
    (q = [] ∨ (q.headD 0).toNat = 0 ∨ 8 ≤ (q.headD 0).toNat → (serve q a c).1 = [0x04]) ∧
    (((q.headD 0).toNat = 1 ∧ q.length ≠ 7) ∨ ((q.headD 0).toNat = 3 ∧ q.length < 2) ∨
      ((q.headD 0).toNat = 4 ∧ q.length ≠ 8) ∨ ((q.headD 0).toNat = 5 ∧ q.length ≠ 1) ∨
      ((q.headD 0).toNat = 6 ∧ q.length ≠ 2) ∨ ((q.headD 0).toNat = 7 ∧ q.length ≠ 1) →
      (serve q a c).1 = [0x05]) ∧
    (∀ d p, q = 0x03 :: d :: p → p.length ≠ 8 → (serve q a c).1 = [0x01]) ∧
    (∀ d p, q = 0x03 :: d :: p → p.length = 8 → 0x7F < d.toNat → (serve q a c).1 = [0x02]) ∧
    (∀ d p, q = 0x03 :: d :: p → p.length = 8 → d.toNat ≤ 0x7F → ¬ AllSevenBit p → (serve q a c).1 = [0x03]) ∧
    (∀ k x, q = 0x04 :: k :: x → x.length = 6 → 2 ≤ k.toNat → (serve q a c).1 = [0x06]) ∧
    (∀ p, q = 0x02 :: p → p.length ≠ 8 → (serve q a c).1 = [0x01]) ∧
    (q = [0x07] → c.toNat ≠ 8 → (serve q a c).1 = [0x01])

/-! The colour codec -/

/-- 40 R101 (a property the spec derives from R100): the values each colour byte can have. -/
def Obligations.ColourByteRanges : Prop :=
  ∀ r g b : Int, ∃ c0 c1 c2 c3 c4 : Byte, colorBytes r g b = [c0, c1, c2, c3, c4] ∧
    c0.toNat ∈ [0x04, 0x24, 0x44, 0x64] ∧ c1.toNat ≤ 0x3F ∧ c2.toNat ≤ 0x7F ∧ c3.toNat ≤ 0x7F ∧
    c4.toNat ∈ [0x7E, 0x7F]

/-- 40 R103 (derived by the spec from R100): the bit map of the five colour bytes. -/
def Obligations.ColourBitMap : Prop :=
  ∀ R G B : Byte, ∃ c0 c1 c2 c3 c4 : Byte, packColor R G B = [c0, c1, c2, c3, c4] ∧
    ((c0.getLsbD 7, c0.getLsbD 6, c0.getLsbD 5, c0.getLsbD 4, c0.getLsbD 3, c0.getLsbD 2, c0.getLsbD 1, c0.getLsbD 0) =
      (false, B.getLsbD 1, B.getLsbD 0, false, false, true, false, false)) ∧
    ((c1.getLsbD 7, c1.getLsbD 6, c1.getLsbD 5, c1.getLsbD 4, c1.getLsbD 3, c1.getLsbD 2, c1.getLsbD 1, c1.getLsbD 0) =
      (false, false, B.getLsbD 7, B.getLsbD 6, B.getLsbD 5, B.getLsbD 4, B.getLsbD 3,
        B.getLsbD 2 || G.getLsbD 0)) ∧
    ((c2.getLsbD 7, c2.getLsbD 6, c2.getLsbD 5, c2.getLsbD 4, c2.getLsbD 3, c2.getLsbD 2, c2.getLsbD 1, c2.getLsbD 0) =
      (false, G.getLsbD 7, G.getLsbD 6, G.getLsbD 5, G.getLsbD 4, G.getLsbD 3, G.getLsbD 2, G.getLsbD 1)) ∧
    ((c3.getLsbD 7, c3.getLsbD 6, c3.getLsbD 5, c3.getLsbD 4, c3.getLsbD 3, c3.getLsbD 2, c3.getLsbD 1, c3.getLsbD 0) =
      (false, R.getLsbD 6, R.getLsbD 5, R.getLsbD 4, R.getLsbD 3, R.getLsbD 2, R.getLsbD 1, R.getLsbD 0)) ∧
    ((c4.getLsbD 7, c4.getLsbD 6, c4.getLsbD 5, c4.getLsbD 4, c4.getLsbD 3, c4.getLsbD 2, c4.getLsbD 1, c4.getLsbD 0) =
      (false, true, true, true, true, true, true, R.getLsbD 7))

/-- 40 R104 (derived by the spec from R103): when two clamped triples have the same code. Red is never lost; green and
blue lose only the two bits that share one place. -/
def Obligations.ColourCodesCollideExactly : Prop :=
  ∀ R G B R' G' B' : Byte, packColor R G B = packColor R' G' B' ↔
    R = R' ∧ G.toNat / 2 = G'.toNat / 2 ∧ B &&& 0xFB = B' &&& 0xFB ∧
      (G.getLsbD 0 || B.getLsbD 2) = (G'.getLsbD 0 || B'.getLsbD 2)

/-- 40 R105: what the reference inverse recovers: red exactly, green and blue but for the shared bit m. -/
def Obligations.DecodeColorRecovers : Prop :=
  ∀ r g b : Int, ∃ m : Byte,
    m.toNat = (if clampNat g % 2 = 1 ∨ clampNat b / 4 % 2 = 1 then 1 else 0) ∧
    decodeColor (colorBytes r g b) =
      some (BitVec.ofNat 8 (clampNat r), (BitVec.ofNat 8 (clampNat g) &&& 0xFE) ||| m,
        (BitVec.ofNat 8 (clampNat b) &&& 0xFB) ||| (m <<< 2))

/-! The checksum -/

/-- 41 R123 (derived by the spec from R120): the closed forms of the final accumulator and of the checksum. -/
def Obligations.ChecksumClosedForm : Prop :=
  ∀ b0 b1 b2 b3 b4 b5 b6 b7 : Byte,
    let p (b : Byte) : Nat := b.toNat % 128
    (ckAcc [b0, b1, b2, b3, b4, b5, b6, b7]).toNat =
      (8 + 139 * p b0 + 217 * p b1 + 243 * p b2 + 81 * p b3 + 27 * p b4 + 9 * p b5 + 3 * p b6 + p b7) % 256 ∧
    (ck [b0, b1, b2, b3, b4, b5, b6, b7]).toNat =
      (8 + 11 * p b0 + 89 * p b1 + 115 * p b2 + 81 * p b3 + 27 * p b4 + 9 * p b5 + 3 * p b6 + p b7) % 128

/-- 41 R123 (derived by the spec): changing the low seven bits of any one byte always changes the
checksum. A change of bit 7 alone does not (R122: `ChecksumIsSevenBitOfSevenBits`). -/
def Obligations.ChecksumSeesEverySingleByte : Prop :=
  ∀ (p : List Byte) (i : Nat) (b : Byte), p.length = 8 → i < 8 →
    b.toNat % 128 ≠ (p.getD i 0).toNat % 128 → ck (p.set i b) ≠ ck p

/-- 41 R122 (derived by the spec from R120): the checksum is a 7-bit value that sees each byte's low seven bits only. -/
def Obligations.ChecksumIsSevenBitOfSevenBits : Prop :=
  ∀ p p' : List Byte, p.length = 8 → p.map (fun b => b.toNat % 128) = p'.map (fun b => b.toNat % 128) →
    (ck p).toNat ≤ 127 ∧ ck p = ck p'

/-- 41 R125 (derived by the spec from R124 and R126): the serial registers after CKRST and k bytes, whatever requests of
other operations come between. -/
def Obligations.SerialRegistersAfterBytes : Prop :=
  ∀ (is : List Instr) (bs : List Byte) (a : BitVec 8) (c : BitVec 4),
    is.filter writesHash = .ckrst :: bs.map Instr.ckacc →
      (serialAfter (is.map encode) a c).1.toNat = hashFrom 8 bs ∧
      (serialAfter (is.map encode) a c).2.toNat = min bs.length 15

/-- 41 R130 (derived by the spec): CKRST, eight CKACC and CKFIN answer what CKSUM of the eight bytes answers, whatever
requests of other operations come between; ACC then holds the final accumulator and CNT is 8. -/
def Obligations.SerialChecksumEqualsOneShot : Prop :=
  ∀ (is : List Instr) (bs : List Byte) (a a' : BitVec 8) (c c' : BitVec 4), bs.length = 8 →
    is.filter writesHash = .ckrst :: bs.map Instr.ckacc →
      (serveAll ((is ++ [Instr.ckfin]).map encode) a c).getLast? = some (serve (encode (.cksum bs)) a' c').1 ∧
      (serve (encode (.cksum bs)) a' c').1 = [0x00, ck bs] ∧
      serialAfter ((is ++ [Instr.ckfin]).map encode) a c = (ckAcc bs, 8)

/-- 41 R127: at CNT = 15 CKACC still writes ACC and CNT stays 15; after more than 8 CKACC, from any state and whatever
requests of other operations come between, CKFIN answers E_LEN. -/
def Obligations.SaturatedCounterNeverAnswers : Prop :=
  (∀ (b : Byte) (s t : State), s.cnt.toNat = 15 → exec (.ckacc b) s = .next t →
    t.cnt.toNat = 15 ∧ t.acc.toNat = (s.acc.toNat * 3 + b.toNat % 128) % 256) ∧
  (∀ (is : List Instr) (bs : List Byte) (a : BitVec 8) (c : BitVec 4), 8 < bs.length →
    is.filter writesHash = bs.map Instr.ckacc →
      (serveAll ((is ++ [Instr.ckfin]).map encode) a c).getLast? = some [0x01])

/-- 41 R129: CKFIN twice in a row answers the same twice and leaves ACC and CNT; a CKACC after a successful CKFIN goes on
with the same hash, makes CNT 9, and the next CKFIN answers E_LEN. -/
def Obligations.CkfinIsNonDestructive : Prop :=
  ∀ (a : BitVec 8) (c : BitVec 4) (b : Byte),
    (∃ x, serveAll [encode .ckfin, encode .ckfin] a c = [x, x]) ∧
    serialAfter [encode .ckfin, encode .ckfin] a c = (a, c) ∧
    (c.toNat = 8 →
      serveAll [encode .ckfin, encode (.ckacc b), encode .ckfin] a c =
        [[0x00, BitVec.ofNat 8 (a.toNat % 128)], [0x00], [0x01]] ∧
      (serialAfter [encode .ckfin, encode (.ckacc b), encode .ckfin] a c).1.toNat =
        (a.toNat * 3 + b.toNat % 128) % 256 ∧
      (serialAfter [encode .ckfin, encode (.ckacc b), encode .ckfin] a c).2.toNat = 9)

/-- 10 R22, R30; 41 R126, R128: what ACC bit 7 reaches. Two accumulators with the same low seven bits give the same
responses to all later requests; and flipping bit 7 flips it in the accumulator after any CKACCs. That bit 7 reaches no
CKFIN response follows from the formulas of R126 and R128 against R30's words: the model's choice of the two (log 18). -/
def Obligations.AccBitSevenReachesNoResponse : Prop :=
  (∀ (qs : List Message) (a a' : BitVec 8) (c : BitVec 4), a.toNat % 128 = a'.toNat % 128 →
    serveAll qs a c = serveAll qs a' c) ∧
  (∀ (bs : List Byte) (a : BitVec 8) (c : BitVec 4),
    (serialAfter (bs.map fun b => encode (.ckacc b)) (a ^^^ 0x80) c).1 =
      (serialAfter (bs.map fun b => encode (.ckacc b)) a c).1 ^^^ 0x80)

/-! The frame encoder -/

/-- 42 R153: DEVID_OOR_POLICY. REJECT refuses a device id above 0x7F; MASK carries its low seven bits; below that both
carry it as it is. -/
def Obligations.DeviceIdPolicies : Prop :=
  ∀ (pp : PbytePolicy) (d : Byte) (p : List Byte), p.length = 8 →
    (0x7F < d.toNat → buildFrame .reject pp d p = .error .eDevid) ∧
    (d.toNat ≤ 0x7F → buildFrame .reject pp d p = buildFrame .mask pp d p) ∧
    (∀ dp f, buildFrame dp pp d p = .ok f → (f.getD 5 0).toNat = d.toNat % 128) ∧
    (AllSevenBit p → ∃ f, buildFrame .mask pp d p = .ok f)

/-- 42 R154: PBYTE_POLICY, for every device id that the device id's own policy does not refuse. -/
def Obligations.PayloadBytePolicies : Prop :=
  ∀ (dp : DevidPolicy) (d : Byte) (p : List Byte), p.length = 8 → d.toNat ≤ 0x7F ∨ dp = .mask →
    (¬ AllSevenBit p → buildFrame dp .reject d p = .error .ePbyte) ∧
    (∃ f, buildFrame dp .mask d p = .ok f ∧
      ((f.drop 6).take 8).map BitVec.toNat = p.map (fun b => b.toNat % 128)) ∧
    (∃ f, buildFrame dp .pass d p = .ok f ∧ (f.drop 6).take 8 = p) ∧
    (AllSevenBit p → buildFrame dp .reject d p = buildFrame dp .mask d p ∧
      buildFrame dp .reject d p = buildFrame dp .pass d p)

/-- 42 R156: a BLDFRM answers one status byte and nothing of a frame unless every check passes, and then the whole
frame; operands that fail a check never get an OK response. -/
def Obligations.NoPartialFrame : Prop :=
  ∀ (d : Byte) (p : List Byte) (s t : State), exec (.bldfrm d p) s = .next t →
    ∃ a : Message, t.rspq = s.rspq ++ [a] ∧
      ((p.length ≠ 8 ∨ 0x7F < d.toNat ∨ ¬ AllSevenBit p) → a.length = 1 ∧ (a.headD 0).toNat ≠ 0) ∧
      ((a.headD 0).toNat = 0 → a.length = 17)

/-- 42 R152 (derived by the spec from R150 and R151): the frame invariants hold under every policy. -/
def Obligations.FrameInvariantsUnderEveryPolicy : Prop :=
  ∀ (dp : DevidPolicy) (pp : PbytePolicy) (d : Byte) (p f : List Byte), buildFrame dp pp d p = .ok f →
    f.length = 16 ∧ f.take 4 = [0xF0, 0x00, 0x21, 0x10] ∧ f.getD 4 0 = 0x77 ∧ f.getD 15 0 = 0xF7 ∧
    f.getD 14 0 = ck ((f.drop 6).take 8) ∧ (f.getD 14 0).toNat = hashFrom 8 p % 128

/-- 42 R158 (derived by the spec): at the default policies the frames BLDFRM answers are exactly the byte strings that
satisfy isFrame, each the answer to BLDFRM of its own device id and payload. -/
def Obligations.FramesAreExactlyIsFrame : Prop :=
  (∀ d p f, buildFrame Config.devidPolicy Config.pbytePolicy d p = .ok f → isFrame f = true) ∧
  (∀ f, isFrame f = true →
    buildFrame Config.devidPolicy Config.pbytePolicy (f.getD 5 0) ((f.drop 6).take 8) = .ok f)

/-- 41 R132: the checksum covers the payload bytes 6 to 13 of the frame only: changing the device id changes byte 5 and
no other. -/
def Obligations.ChecksumIgnoresDeviceId : Prop :=
  ∀ (d d' : Byte) (p f : List Byte), d'.toNat ≤ 0x7F →
    buildFrame Config.devidPolicy Config.pbytePolicy d p = .ok f →
      f.getD 14 0 = ck ((f.drop 6).take 8) ∧
      buildFrame Config.devidPolicy Config.pbytePolicy d' p = .ok (f.set 5 d')

/-! The colour payload and its frame -/

/-- 43 R172, R173 (derived by the spec from R170): the shape of a colour payload, which is never root key C's. -/
def Obligations.ColourPayloadShape : Prop :=
  ∀ (k : Byte) (r g b : Int) (p : List Byte), buildColor k r g b = .ok p →
    p.length = 8 ∧ p.getD 0 0 = 0x10 ∧ (p.getD 1 0 = 0x20 ∨ p.getD 1 0 = 0x30) ∧
    (p.getD 2 0).toNat ∈ [0x04, 0x24, 0x44, 0x64] ∧ (p.getD 6 0).toNat ∈ [0x7E, 0x7F] ∧ p.getD 7 0 = 0x03 ∧
    AllSevenBit p ∧ p ≠ [0x10, 0x30, 0x03, 0x00, 0x00, 0x00, 0x00, 0x00]

/-- 30 R71: COLFRM for a device id in range, 0 to 0x7F. Its first request is the BLDCOL of the line's own command and
channels, PRIMARY selector 0 and ROOT selector 1, answered with the colour payload of those; the second request exists,
is the BLDFRM of that payload for the line's device, and is answered with a frame that carries both: BLDFRM never raises
E_PBYTE on it (43 R171). A channel that is no S16 value is refused at any device id (R70). For the other device ids see
`ColfrmOutOfRangeDevice`. -/
def Obligations.ColfrmFramesForDeviceInRange : Prop :=
  ∀ (k : ColorKind) (r g b d : Int) (a : BitVec 8) (c : BitVec 4),
    let sel : Byte := if k = .primary then 0x00 else 0x01
    let q1 := encode (.bldcol sel r g b)
    (isS16 r = true → isS16 g = true → isS16 b = true → 0 ≤ d → d ≤ 0x7F →
      ∃ payload frame : List Byte, assemble (.colfrm k r g b d) = some (.colorFrame q1 (BitVec.ofInt 8 d)) ∧
        buildColor sel r g b = .ok payload ∧ (serve q1 a c).1 = 0x00 :: payload ∧
        colorFrameSecond (BitVec.ofInt 8 d) (serve q1 a c).1 = some (encode (.bldfrm (BitVec.ofInt 8 d) payload)) ∧
        (serve (encode (.bldfrm (BitVec.ofInt 8 d) payload)) a c).1 = 0x00 :: frame ∧ isFrame frame = true ∧
        (frame.drop 6).take 8 = payload ∧ ((frame.getD 5 0).toNat : Int) = d) ∧
    (¬ (isS16 r = true ∧ isS16 g = true ∧ isS16 b = true) → assemble (.colfrm k r g b d) = none)

/-! The whole machine -/

/-- The invariant holds after reset (10 R32). -/
def Obligations.ResetMeetsInvariant : Prop := State.reset.Inv

/-- 10 R28, R29; 30 R65, R66, R67; 60 R200: from any state that meets it, every step of either agent keeps the invariant:
the queues within their capacities, every queued request within REQ_MAX, every response a legal one. -/
def Obligations.EveryStepKeepsInvariant : Prop :=
  ∀ s t : State, s.Inv → step s = .next t → t.Inv

/-- 60 R203, R206: no request stops the FEU. From a state within the invariant its turn, and a reset, always answers a next
state; the only stops are host moves that 60 R214 and R220 do not enable. The model's choices: a turn of an idle or held
FEU answers a next state where 60 R213 and 93 I7 say that it takes no step (log 3), a host move that is not enabled stops
(log 4), and so does a request over REQ_MAX (log 5). -/
def Obligations.FeuNeverStops : Prop :=
  ∀ s : State, s.Inv →
    (nextMove s = .feu ∨ nextMove s = .reset → StepsSafely s) ∧
    (¬ StepsSafely s ↔ (nextMove s = .take ∧ s.rspq = []) ∨
      ∃ q, nextMove s = .enqueue q ∧ (Config.reqMax < q.length ∨ Config.reqqDepth ≤ s.reqq.length))

/-- 20 R50: strict FIFO. The responses taken, those waiting and those the queued requests are still owed form one list
that a turn of the FEU or a take leaves as it is, as it does the registers after everything queued; a request the host
adds only appends its own response, served after every request before it. The moves of a schedule are the model's (log 1),
and so is the list of the responses taken (log 2). -/
def Obligations.ResponsesComeInRequestOrder : Prop :=
  ∀ s t : State, step s = .next t →
    (nextMove s = .feu ∨ nextMove s = .take →
      t.history = s.history ∧ serialAfter t.reqq t.acc t.cnt = serialAfter s.reqq s.acc s.cnt) ∧
    (∀ q, nextMove s = .enqueue q →
      t.history = s.history ++
        [(serve q (serialAfter s.reqq s.acc s.cnt).1 (serialAfter s.reqq s.acc s.cnt).2).1])

/-- 60 R221, 70 R245: a host that sends each request, lets the FEU take its turn and takes the response, gets every
response in order and ends the run, at whatever queue capacities: the result is the one `serveAll` computes. The schedule
is the model's form of the host (log 1). -/
def Obligations.SendEachGetsEveryResponse : Prop :=
  ∀ (qs : List Message) (s : State), (∀ q ∈ qs, q.length ≤ Config.reqMax) →
    s.reqq = [] → s.rspq = [] → s.schedule = sendEach qs →
    ∃ t : State, runSteps (3 * qs.length) s = .next t ∧ runEnded t = true ∧
      runResult t = (s.taken ++ serveAll qs s.acc s.cnt, serialAfter qs s.acc s.cnt)

/-- 70 R260, 60 R214: once the host has made its moves the FEU takes every enabled step: with room for the responses, as
many turns as there are requests answer them all. That the FEU has every later turn is the model's form of fairness
(log 1). -/
def Obligations.FeuDrainsItsRequests : Prop :=
  ∀ s : State, s.schedule = [] → (∀ q ∈ s.reqq, q.length ≤ Config.reqMax) →
    s.rspq.length + s.reqq.length ≤ Config.rspqDepth →
    ∃ t : State, runSteps s.reqq.length s = .next t ∧ t.reqq = [] ∧
      t.rspq = s.rspq ++ serveAll s.reqq s.acc s.cnt ∧ (t.acc, t.cnt) = serialAfter s.reqq s.acc s.cnt

/-- 60 R211: instances share no state: a step of one is its own step, and leaves every other as it was. That one `step`
moves them all, so that all have the same parameters, is the model's choice (log 17). -/
def Obligations.InstancesAreIndependent : Prop :=
  ∀ (k : Nat) (feus : List State) (s t : State), feus[k]? = some s → step s = .next t →
    ∃ feus', stepInstance k feus = .next feus' ∧ feus'.length = feus.length ∧ feus'[k]? = some t ∧
      ∀ j, j ≠ k → feus'[j]? = feus[j]?

/-! The assembler (30 R70, R71) -/

/-- 30 R70: what the assembler refuses, and what it writes for each line it accepts: the one request of the line's
instruction, at every operand, BLDCOL's named forms at selectors 0 and 1 (the bytes of `encode` are those of
`RequestLayoutsDecode`, by `EncodeOfDecode`), and RAW's bytes as they are. -/
def Obligations.AssemblerChecksRanges : Prop :=
  (∀ r g b : Int,
    ((assemble (.enccol r g b)).isSome = true ↔ isS16 r = true ∧ isS16 g = true ∧ isS16 b = true) ∧
    (∀ k, (assemble (.bldcolNamed k r g b)).isSome = true ↔ isS16 r = true ∧ isS16 g = true ∧ isS16 b = true) ∧
    (∀ s, (assemble (.bldcol s r g b)).isSome = true ↔
      0 ≤ s ∧ s ≤ 255 ∧ isS16 r = true ∧ isS16 g = true ∧ isS16 b = true) ∧
    (isS16 r = true → isS16 g = true → isS16 b = true →
      assemble (.enccol r g b) = some (.requests [encode (.enccol r g b)]) ∧
      assemble (.bldcolNamed .primary r g b) = some (.requests [encode (.bldcol 0x00 r g b)]) ∧
      assemble (.bldcolNamed .root r g b) = some (.requests [encode (.bldcol 0x01 r g b)]) ∧
      (∀ s : Byte, assemble (.bldcol s.toNat r g b) = some (.requests [encode (.bldcol s r g b)])))) ∧
  (∀ (d : Int) (p : List Int), (assemble (.bldfrm d p)).isSome = true ↔
    0 ≤ d ∧ d ≤ 255 ∧ ∀ v ∈ p, 0 ≤ v ∧ v ≤ 255) ∧
  (∀ p : List Int, (assemble (.cksum p)).isSome = true ↔ ∀ v ∈ p, 0 ≤ v ∧ v ≤ 255) ∧
  (∀ b : Int, (assemble (.ckacc b)).isSome = true ↔ 0 ≤ b ∧ b ≤ 255) ∧
  (∀ (d : Byte) (p : List Byte), let written := p.map fun b => (b.toNat : Int)
    assemble (.bldfrm d.toNat written) = some (.requests [encode (.bldfrm d p)]) ∧
    assemble (.cksum written) = some (.requests [encode (.cksum p)]) ∧
    assemble (.ckacc d.toNat) = some (.requests [encode (.ckacc d)]) ∧
    assemble (.raw written) = some (.requests [p])) ∧
  assemble .ckrst = some (.requests [encode .ckrst]) ∧
  assemble .ckfin = some (.requests [encode .ckfin])

/-- 30 R71: CKSEQ's ten requests are CKRST, CKACC of each byte in order, CKFIN, and end in the response CKSUM gives, from
any registers. That the line takes exactly eight bytes is the model's reading (log 12). -/
def Obligations.CkseqEndsInTheChecksum : Prop :=
  (∀ p : List Int, (assemble (.ckseq p)).isSome = true ↔ p.length = 8 ∧ ∀ v ∈ p, 0 ≤ v ∧ v ≤ 255) ∧
  ∀ (bs : List Byte) (a : BitVec 8) (c : BitVec 4), bs.length = 8 →
    let qs := encode .ckrst :: bs.map (fun b => encode (.ckacc b)) ++ [encode .ckfin]
    assemble (.ckseq (bs.map fun b => (b.toNat : Int))) = some (.requests qs) ∧
      (serveAll qs a c).getLast? = some (serve (encode (.cksum bs)) a c).1

/-- 30 R72: the spec's own lines of assembly become the request bytes it lists. -/
def Obligations.ExampleLinesAssemble : Prop :=
  assembleText "ENCCOL -5, 300, 128".toList =
    some (.requests [[0x01, 0xFF, 0xFB, 0x01, 0x2C, 0x00, 0x80]]) ∧
  assembleText "CKSUM [0x10, 0x30, 0x03, 0, 0, 0, 0, 0]".toList =
    some (.requests [[0x02, 0x10, 0x30, 0x03, 0x00, 0x00, 0x00, 0x00, 0x00]]) ∧
  assembleText "BLDFRM 0, [0x10, 0x30, 0x03, 0, 0, 0, 0, 0]".toList =
    some (.requests [[0x03, 0x00, 0x10, 0x30, 0x03, 0x00, 0x00, 0x00, 0x00, 0x00]]) ∧
  assembleText "BLDCOL PRIMARY, 255, 0, 0".toList =
    some (.requests [[0x04, 0x00, 0x00, 0xFF, 0x00, 0x00, 0x00, 0x00]]) ∧
  assembleText "CKACC 0x7F".toList = some (.requests [[0x06, 0x7F]])

/-- 30 R70, R71: COLFRM for a device id that BLDFRM refuses. The line assembles for any byte of 0x80 to 0xFF (R71 gives no
bound beyond R70's; the model's reading, log 12), its first request is answered with the colour payload of its command
and channels as always, and its second, the BLDFRM of that payload, with E_DEVID (42 R155), no byte of a frame. A device
id that is no byte is refused by the assembler (R70). -/
def Obligations.ColfrmOutOfRangeDevice : Prop :=
  ∀ (k : ColorKind) (r g b d : Int) (a : BitVec 8) (c : BitVec 4),
    let sel : Byte := if k = .primary then 0x00 else 0x01
    let q1 := encode (.bldcol sel r g b)
    isS16 r = true → isS16 g = true → isS16 b = true →
    (0x80 ≤ d → d ≤ 0xFF →
      ∃ payload : List Byte, assemble (.colfrm k r g b d) = some (.colorFrame q1 (BitVec.ofInt 8 d)) ∧
        buildColor sel r g b = .ok payload ∧ (serve q1 a c).1 = 0x00 :: payload ∧
        colorFrameSecond (BitVec.ofInt 8 d) (serve q1 a c).1 = some (encode (.bldfrm (BitVec.ofInt 8 d) payload)) ∧
        (serve (encode (.bldfrm (BitVec.ofInt 8 d) payload)) a c).1 = [0x02]) ∧
    (d < 0 ∨ 0xFF < d → assemble (.colfrm k r g b d) = none)
end

