-- ==== Sys2Proof/Laws/State.lean ====
section
/-! SUPPORT. One lemma per field and update of the state, so that no proof unfolds a record update. -/

namespace Sys2Proof.Machine

section WriteSerial
variable (a : BitVec 8) (c : BitVec 4) (s : State)
@[simp] theorem writeSerial_acc : (writeSerial a c s).acc = a := rfl
@[simp] theorem writeSerial_cnt : (writeSerial a c s).cnt = c := rfl
@[simp] theorem writeSerial_reqq : (writeSerial a c s).reqq = s.reqq := rfl
@[simp] theorem writeSerial_rspq : (writeSerial a c s).rspq = s.rspq := rfl
@[simp] theorem writeSerial_schedule : (writeSerial a c s).schedule = s.schedule := rfl
@[simp] theorem writeSerial_taken : (writeSerial a c s).taken = s.taken := rfl
end WriteSerial

section EnqueueResponse
variable (a : Message) (s : State)
@[simp] theorem enqueueResponse_acc : (enqueueResponse a s).acc = s.acc := rfl
@[simp] theorem enqueueResponse_cnt : (enqueueResponse a s).cnt = s.cnt := rfl
@[simp] theorem enqueueResponse_reqq : (enqueueResponse a s).reqq = s.reqq := rfl
@[simp] theorem enqueueResponse_rspq : (enqueueResponse a s).rspq = s.rspq ++ [a] := rfl
@[simp] theorem enqueueResponse_schedule : (enqueueResponse a s).schedule = s.schedule := rfl
@[simp] theorem enqueueResponse_taken : (enqueueResponse a s).taken = s.taken := rfl
end EnqueueResponse

section DequeueRequest
variable (s : State)
@[simp] theorem dequeueRequest_acc : (dequeueRequest s).acc = s.acc := rfl
@[simp] theorem dequeueRequest_cnt : (dequeueRequest s).cnt = s.cnt := rfl
@[simp] theorem dequeueRequest_reqq : (dequeueRequest s).reqq = s.reqq.tail := rfl
@[simp] theorem dequeueRequest_rspq : (dequeueRequest s).rspq = s.rspq := rfl
@[simp] theorem dequeueRequest_schedule : (dequeueRequest s).schedule = s.schedule := rfl
@[simp] theorem dequeueRequest_taken : (dequeueRequest s).taken = s.taken := rfl
end DequeueRequest

section AssertReset
variable (s : State)
@[simp] theorem assertReset_acc : (assertReset s).acc = 0x08 := rfl
@[simp] theorem assertReset_cnt : (assertReset s).cnt = 0 := rfl
@[simp] theorem assertReset_reqq : (assertReset s).reqq = [] := rfl
@[simp] theorem assertReset_rspq : (assertReset s).rspq = [] := rfl
@[simp] theorem assertReset_schedule : (assertReset s).schedule = s.schedule := rfl
@[simp] theorem assertReset_taken : (assertReset s).taken = s.taken := rfl
end AssertReset

section Reset
@[simp] theorem reset_acc : State.reset.acc = 0x08 := rfl
@[simp] theorem reset_cnt : State.reset.cnt = 0 := rfl
@[simp] theorem reset_reqq : State.reset.reqq = [] := rfl
@[simp] theorem reset_rspq : State.reset.rspq = [] := rfl
@[simp] theorem reset_schedule : State.reset.schedule = [] := rfl
@[simp] theorem reset_taken : State.reset.taken = [] := rfl
end Reset

end Sys2Proof.Machine
end

