-- ==== Sys2Proof/Laws/Arith.lean ====
section
/-! SUPPORT. The operand readings, the hash step and the counter as plain arithmetic on Nat and Int. -/

namespace Sys2Proof.Machine

/-- The 7-bit mask is the remainder modulo 128. -/
theorem low7_toNat (b : Byte) : (low7 b).toNat = b.toNat % 128 := by
  have : b.toNat &&& (2 ^ 7 - 1) = b.toNat % 2 ^ 7 := Nat.and_two_pow_sub_one_eq_mod b.toNat 7
  simpa [low7] using this

theorem low7_le (b : Byte) : (low7 b).toNat ≤ 0x7F := by
  rw [low7_toNat]; omega

/-- The mask leaves a 7-bit value as it is (42 R151). -/
theorem low7_of_le {b : Byte} (h : b.toNat ≤ 0x7F) : low7 b = b := by
  apply BitVec.eq_of_toNat_eq
  rw [low7_toNat]; omega

@[simp] theorem low7_low7 (b : Byte) : low7 (low7 b) = low7 b := low7_of_le (low7_le b)

/-- The hash step of 41 R120, R126 in natural numbers. -/
theorem ckStep_toNat (acc b : BitVec 8) :
    (ckStep acc b).toNat = (acc.toNat * 3 + b.toNat % 128) % 256 := by
  simp [ckStep, low7_toNat]

/-- The accumulator's low seven bits never see its bit 7 (log 18). -/
theorem low7_ckStep (acc b : BitVec 8) : low7 (ckStep acc b) = low7 (ckStep (low7 acc) b) := by
  apply BitVec.eq_of_toNat_eq
  simp only [low7_toNat, ckStep_toNat]
  omega

theorem ckStep_low7 (acc b : BitVec 8) : ckStep acc (low7 b) = ckStep acc b := by
  simp [ckStep]

/-- The counter of 10 R23 in natural numbers. -/
theorem cntSucc_toNat (c : BitVec 4) : (cntSucc c).toNat = min (c.toNat + 1) 15 := by
  simp only [cntSucc, Config.cntMax, BitVec.toNat_ofNat]
  omega

/-- The clamp of 00 R12 in natural numbers. -/
theorem clamp255_toNat (v : Int) : (clamp255 v).toNat = (max 0 (min 255 v)).toNat := by
  unfold clamp255
  split
  · have : (max 0 (min 255 v)) = 0 := by omega
    simp [this]
  · split
    · have : (max 0 (min 255 v)) = 255 := by omega
      simp [this]
    · have : (max 0 (min 255 v)) = v := by omega
      rw [this, BitVec.toNat_ofNat]
      omega

theorem isS16_iff (v : Int) : isS16 v = true ↔ -32768 ≤ v ∧ v ≤ 32767 := by
  simp [isS16]

/-- Every byte pair is an S16 value (30 R63). -/
theorem isS16_sext16 (h l : Byte) : isS16 (sext16 h l) = true := by
  rw [isS16_iff]
  have h1 := BitVec.le_two_mul_toInt (x := (h ++ l : BitVec 16))
  have h2 := BitVec.two_mul_toInt_lt (x := (h ++ l : BitVec 16))
  simp only [sext16]
  omega

/-- The two bytes of an S16 value read back as that value (00 R12, 30 R70). -/
theorem sext16_s16Bytes {v : Int} (hv : isS16 v = true) :
    sext16 ((BitVec.ofInt 16 v).extractLsb' 8 8) ((BitVec.ofInt 16 v).extractLsb' 0 8) = v := by
  rw [isS16_iff] at hv
  have happ : (BitVec.ofInt 16 v).extractLsb' 8 8 ++ (BitVec.ofInt 16 v).extractLsb' 0 8
      = BitVec.ofInt 16 v := by
    ext i hi
    simp
    grind
  unfold sext16
  have : ((BitVec.ofInt 16 v).extractLsb' 8 8 ++ (BitVec.ofInt 16 v).extractLsb' 0 8 : BitVec 16).toInt = v := by
    rw [happ, BitVec.toInt_ofInt]
    simp only [Int.bmod]
    omega
  exact this

theorem append_toNat (h l : Byte) : (h ++ l : BitVec 16).toNat = h.toNat * 256 + l.toNat := by
  rw [BitVec.toNat_append, Nat.shiftLeft_eq, Nat.mul_comm, ← Nat.two_pow_add_eq_or_of_lt l.isLt]

/-- An S16 operand in plain arithmetic (00 R12). -/
theorem sext16_eq_s16Value (h l : Byte) : sext16 h l = s16Value h l := by
  have hl := l.isLt
  have hh := h.isLt
  unfold sext16 s16Value
  rw [BitVec.toInt_eq_toNat_cond, append_toNat]
  split <;> split <;> omega

/-- The S16 value of two bytes is written as those two bytes (30 R64, R70). -/
theorem s16Bytes_sext16 (h l : Byte) : s16Bytes (sext16 h l) = [h, l] := by
  have hh := h.isLt
  have hl := l.isLt
  have e : BitVec.ofInt 16 (sext16 h l) = (h ++ l : BitVec 16) := BitVec.ofInt_toInt
  simp only [s16Bytes, Config.cinW, e, List.cons.injEq, and_true]
  constructor <;>
  · apply BitVec.eq_of_toNat_eq
    rw [BitVec.extractLsb'_toNat, append_toNat, Nat.shiftRight_eq_div_pow]
    omega

/-- The clamp as a byte, and its range (00 R12). -/
theorem clamp255_eq (v : Int) : clamp255 v = BitVec.ofNat 8 (clampNat v) := by
  apply BitVec.eq_of_toNat_eq
  rw [clamp255_toNat, BitVec.toNat_ofNat, clampNat]
  omega

theorem clampNat_lt (v : Int) : clampNat v < 256 := by
  unfold clampNat; omega

/-- The accumulator after a byte string is the plain hash (41 R120, R125). -/
theorem foldl_ckStep_toNat (p : List Byte) (a : BitVec 8) : (p.foldl ckStep a).toNat = hashFrom a.toNat p := by
  induction p generalizing a with
  | nil => rfl
  | cons b p ih => simp only [List.foldl_cons, ih, ckStep_toNat, hashFrom]

theorem ckAcc_toNat (p : List Byte) : (ckAcc p).toNat = hashFrom 8 p := foldl_ckStep_toNat p _

theorem ck_eq (p : List Byte) : ck p = BitVec.ofNat 8 (hashFrom 8 p % 128) := by
  apply BitVec.eq_of_toNat_eq
  rw [ck, low7_toNat, ckAcc_toNat, BitVec.toNat_ofNat]
  omega

/-- The hash sees each byte's low seven bits only (41 R122). -/
theorem hashFrom_congr {p p' : List Byte} (a : Nat)
    (h : p.map (fun b => b.toNat % 128) = p'.map (fun b => b.toNat % 128)) : hashFrom a p = hashFrom a p' := by
  induction p generalizing p' a with
  | nil =>
    cases p' with
    | nil => rfl
    | cons b' p' => simp at h
  | cons b p ih =>
    cases p' with
    | nil => simp at h
    | cons b' p' =>
      simp only [List.map_cons, List.cons.injEq] at h
      simp only [hashFrom, List.foldl_cons, h.1]
      exact ih _ h.2

/-- Two bytes are equal when their eight bits are. -/
theorem byte_eq_iff (x y : Byte) : x = y ↔
    x.getLsbD 0 = y.getLsbD 0 ∧ x.getLsbD 1 = y.getLsbD 1 ∧ x.getLsbD 2 = y.getLsbD 2 ∧
    x.getLsbD 3 = y.getLsbD 3 ∧ x.getLsbD 4 = y.getLsbD 4 ∧ x.getLsbD 5 = y.getLsbD 5 ∧
    x.getLsbD 6 = y.getLsbD 6 ∧ x.getLsbD 7 = y.getLsbD 7 := by
  constructor
  · rintro rfl; simp
  · rintro ⟨h0, h1, h2, h3, h4, h5, h6, h7⟩
    apply BitVec.eq_of_getLsbD_eq
    intro i hi
    interval_cases i <;> assumption

end Sys2Proof.Machine
end

