-- ==== Sys2Proof/Laws/Assembler.lean ====
section
/-! SUPPORT. The assembler's operand checks: which integers are bytes, and that a byte's own value is read back (30 R70). -/

namespace Sys2Proof.Machine

theorem asmByte_isSome (v : Int) : (asmByte v).isSome = true ↔ 0 ≤ v ∧ v ≤ 255 := by
  unfold asmByte
  split <;> simp_all

theorem asmByte_toNat (b : Byte) : asmByte (b.toNat : Int) = some b := by
  have := b.isLt
  rw [asmByte, if_pos (by omega)]
  simp

theorem asmBytes_isSome (p : List Int) : (asmBytes p).isSome = true ↔ ∀ v ∈ p, 0 ≤ v ∧ v ≤ 255 := by
  induction p with
  | nil => simp [asmBytes]
  | cons v vs ih =>
    rw [List.forall_mem_cons, ← asmByte_isSome, ← ih]
    cases h : asmByte v <;> cases h' : asmBytes vs <;> simp [asmBytes, h, h']

theorem asmBytes_length {p : List Int} {q : List Byte} (h : asmBytes p = some q) : q.length = p.length := by
  induction p generalizing q with
  | nil => cases h; rfl
  | cons v vs ih =>
    simp only [asmBytes] at h
    split at h
    · cases h; simp [ih ‹_›]
    · cases h

theorem asmBytes_toNat (p : List Byte) : asmBytes (p.map fun b => (b.toNat : Int)) = some p := by
  induction p with
  | nil => rfl
  | cons b bs ih => simp only [List.map_cons, asmBytes, asmByte_toNat, ih]

/-- The byte an accepted integer is. -/
theorem asmByte_of_range {d : Int} (h0 : 0 ≤ d) (h1 : d ≤ 255) : asmByte d = some (BitVec.ofInt 8 d) := by
  obtain ⟨n, rfl⟩ := Int.eq_ofNat_of_zero_le h0
  simp [asmByte, h1]

end Sys2Proof.Machine
end

