-- ==== Sys2Proof/Laws/Ops.lean ====
section
/-! SUPPORT. What each shared operation, each meaning, the FEU's turn and the step can do, said once. -/

namespace Sys2Proof.Machine

@[simp] theorem respond_eq (d : List Byte) (s : State) :
    respond d s = .next { s with rspq := s.rspq ++ [0x00 :: d] } := rfl

@[simp] theorem raiseError_eq (e : ErrCode) (s : State) :
    raiseError e s = .next { s with rspq := s.rspq ++ [[errByte e]] } := rfl

/-- No error code is the OK status (60 R200). -/
theorem errByte_ne_ok (e : ErrCode) : errByte e ≠ okStatus := by cases e <;> decide

/-- The response an operation that only computes appends. -/
def resultResponse : Except ErrCode (List Byte) → Message
  | .ok d => okResponse d
  | .error e => errResponse e

theorem finish_eq (r : Except ErrCode (List Byte)) (s : State) :
    finish r s = .next (enqueueResponse (resultResponse r) s) := by
  cases r <;> rfl

/-- The response of an instruction, from ACC and CNT before it. -/
def answer (i : Instr) (a : BitVec 8) (c : BitVec 4) : Message :=
  match i with
  | .enccol r g b => okResponse (colorBytes r g b)
  | .cksum p => if p.length = 8 then okResponse [ck p] else errResponse .eLen
  | .bldfrm d p => resultResponse (buildFrame Config.devidPolicy Config.pbytePolicy d p)
  | .bldcol sel r g b => resultResponse (buildColor sel r g b)
  | .ckrst => okResponse []
  | .ckacc _ => okResponse []
  | .ckfin => if c.toNat = 8 then okResponse [low7 a] else errResponse .eLen

/-- ACC and CNT after an instruction (10 R33: only CKRST and CKACC write them). -/
def serialOf (i : Instr) (a : BitVec 8) (c : BitVec 4) : BitVec 8 × BitVec 4 :=
  match i with
  | .ckrst => (Config.ckSeed, 0)
  | .ckacc b => (ckStep a b, cntSucc c)
  | .enccol _ _ _ => (a, c)
  | .cksum _ => (a, c)
  | .bldfrm _ _ => (a, c)
  | .bldcol _ _ _ _ => (a, c)
  | .ckfin => (a, c)

/-- Every instruction answers a next state: its registers written, one response appended, nothing else. -/
theorem exec_eq (i : Instr) (s : State) :
    exec i s = .next { s with
      acc := (serialOf i s.acc s.cnt).1, cnt := (serialOf i s.acc s.cnt).2,
      rspq := s.rspq ++ [answer i s.acc s.cnt] } := by
  cases i with
  | enccol r g b => rfl
  | cksum p =>
    simp only [exec, execCksum, answer, serialOf]
    split <;> rfl
  | bldfrm d p => simp only [exec, execBldfrm, finish_eq, answer, serialOf]; rfl
  | bldcol sel r g b => simp only [exec, execBldcol, finish_eq, answer, serialOf]; rfl
  | ckrst => rfl
  | ckacc b => rfl
  | ckfin =>
    simp only [exec, execCkfin, answer, serialOf]
    split <;> rfl

/-- The response to any request. -/
def answerTo (q : Message) (a : BitVec 8) (c : BitVec 4) : Message :=
  match decode q with
  | .ok i => answer i a c
  | .error e => errResponse e

/-- ACC and CNT after any request. -/
def serialTo (q : Message) (a : BitVec 8) (c : BitVec 4) : BitVec 8 × BitVec 4 :=
  match decode q with
  | .ok i => serialOf i a c
  | .error _ => (a, c)

theorem processRequest_eq (q : Message) (s : State) :
    processRequest q s = .next { s with
      acc := (serialTo q s.acc s.cnt).1, cnt := (serialTo q s.acc s.cnt).2,
      rspq := s.rspq ++ [answerTo q s.acc s.cnt] } := by
  unfold processRequest answerTo serialTo
  cases decode q with
  | ok i => exact exec_eq i s
  | error e => rfl

theorem serve_eq (q : Message) (a : BitVec 8) (c : BitVec 4) :
    serve q a c = (answerTo q a c, serialTo q a c) := by
  simp [serve, processRequest_eq]

/-- The FEU's turn, case by case (70 R244, 60 R213, 30 R65). -/
theorem feuTurn_idle {s : State} (h : s.reqq = []) : feuTurn s = .next s := by
  simp [feuTurn, h]

theorem feuTurn_hold {s : State} (h : rspqHasRoom s = false) : feuTurn s = .next s := by
  unfold feuTurn
  split
  · rfl
  · simp [h]

theorem feuTurn_process {s : State} {q : Message} {rest : List Message} (hq : s.reqq = q :: rest)
    (hr : rspqHasRoom s = true) (hf : requestFits q = true) :
    feuTurn s = .next { s with
      acc := (serialTo q s.acc s.cnt).1, cnt := (serialTo q s.acc s.cnt).2, reqq := rest,
      rspq := s.rspq ++ [answerTo q s.acc s.cnt] } := by
  simp [feuTurn, hq, hr, hf, processRequest_eq, dequeueRequest]

theorem feuTurn_oversized {s : State} {q : Message} {rest : List Message} (hq : s.reqq = q :: rest)
    (hr : rspqHasRoom s = true) (hf : requestFits q = false) :
    feuTurn s = .refused .requestTooLong := by
  simp [feuTurn, hq, hr, hf]

/-- Everything the FEU's turn can do when it answers a next state. -/
theorem feuTurn_cases {s t : State} (h : feuTurn s = .next t) :
    (t = s ∧ (s.reqq = [] ∨ rspqHasRoom s = false)) ∨
    (∃ q rest, s.reqq = q :: rest ∧ rspqHasRoom s = true ∧ requestFits q = true ∧
      t = { s with
        acc := (serialTo q s.acc s.cnt).1, cnt := (serialTo q s.acc s.cnt).2, reqq := rest,
        rspq := s.rspq ++ [answerTo q s.acc s.cnt] }) := by
  cases hq : s.reqq with
  | nil => rw [feuTurn_idle hq] at h; cases h; exact .inl ⟨rfl, .inl rfl⟩
  | cons q rest =>
    cases hr : rspqHasRoom s with
    | false => rw [feuTurn_hold hr] at h; cases h; exact .inl ⟨rfl, .inr rfl⟩
    | true =>
      cases hf : requestFits q with
      | false => rw [feuTurn_oversized hq hr hf] at h; cases h
      | true =>
        rw [feuTurn_process hq hr hf] at h; cases h
        exact .inr ⟨q, rest, rfl, rfl, hf, rfl⟩

theorem hostEnqueue_cases {q : Message} {s t : State} (h : hostEnqueue q s = .next t) :
    requestFits q = true ∧ reqqHasRoom s = true ∧ t = { s with reqq := s.reqq ++ [q] } := by
  unfold hostEnqueue at h
  split at h
  · split at h
    · cases h; exact ⟨‹_›, ‹_›, rfl⟩
    · cases h
  · cases h

theorem hostTake_cases {s t : State} (h : hostTake s = .next t) :
    ∃ a rest, s.rspq = a :: rest ∧ t = { s with rspq := rest, taken := s.taken ++ [a] } := by
  unfold hostTake at h
  split at h
  · cases h
  · rename_i a rest hr; cases h; exact ⟨a, rest, hr, rfl⟩

@[simp] theorem nextMove_nil {s : State} (h : s.schedule = []) : nextMove s = .feu := by
  simp [nextMove, h]

@[simp] theorem nextMove_cons {s : State} {m : Move} {ms : List Move} (h : s.schedule = m :: ms) :
    nextMove s = m := by
  simp [nextMove, h]

/-- The step is the next move, run on the state with that move taken off the schedule. -/
theorem step_eq (s : State) : step s = runMove (nextMove s) { s with schedule := s.schedule.tail } := rfl

theorem runMove_feu (s : State) : runMove .feu s = feuTurn s := rfl
theorem runMove_enqueue (q : Message) (s : State) : runMove (.enqueue q) s = hostEnqueue q s := rfl
theorem runMove_take (s : State) : runMove .take s = hostTake s := rfl
theorem runMove_reset (s : State) : runMove .reset s = .next (assertReset s) := rfl

theorem rspqHasRoom_iff (s : State) : rspqHasRoom s = true ↔ s.rspq.length < Config.rspqDepth := by
  simp [rspqHasRoom]

theorem reqqHasRoom_iff (s : State) : reqqHasRoom s = true ↔ s.reqq.length < Config.reqqDepth := by
  simp [reqqHasRoom]

theorem requestFits_iff (q : Message) : requestFits q = true ↔ q.length ≤ Config.reqMax := by
  simp [requestFits]

/-- Every request of at most 10 bytes fits, whatever REQ_MAX is (00 R8). -/
theorem requestFits_of_le {q : Message} (h : q.length ≤ 10) : requestFits q = true := by
  rw [requestFits_iff, Config.reqMax]; omega

/-- An empty response queue has room, whatever its depth is (00 R8). -/
theorem rspqHasRoom_of_nil {s : State} (h : s.rspq = []) : rspqHasRoom s = true := by
  rw [rspqHasRoom_iff, h, Config.rspqDepth]; simp

theorem reqqHasRoom_of_nil {s : State} (h : s.reqq = []) : reqqHasRoom s = true := by
  rw [reqqHasRoom_iff, h, Config.reqqDepth]; simp

theorem runSteps_zero (s : State) : runSteps 0 s = .next s := rfl

/-- A run goes on from the state its first step answers. -/
theorem runSteps_succ {s t : State} (n : Nat) (h : step s = .next t) : runSteps (n + 1) s = runSteps n t := by
  rw [runSteps, h]

end Sys2Proof.Machine
end

