-- ==== Sys2Proof/Laws/Operations.lean ====
section
/-! SUPPORT. What the frame encoder and the colour payload builder answer, case by case (42_frame_encoder.md,
43_color_payload.md). -/

namespace Sys2Proof.Machine

theorem any_above_iff (p : List Byte) : (p.any fun b => decide (0x7F < b.toNat)) = true ↔ ¬ AllSevenBit p := by
  simp [AllSevenBit]

theorem any_above_false {p : List Byte} (h : AllSevenBit p) : (p.any fun b => decide (0x7F < b.toNat)) = false := by
  simpa [AllSevenBit] using h

theorem map_low7_of_sevenBit {p : List Byte} (h : AllSevenBit p) : p.map low7 = p := by
  conv_rhs => rw [← List.map_id p]
  exact List.map_congr_left fun b hb => low7_of_le (h b hb)

/-- BLDFRM at the default policies, its four cases in the order of its checks (42 R151, R155). -/
theorem buildFrame_eLen {d : Byte} {p : List Byte} (dp : DevidPolicy) (pp : PbytePolicy) (h : p.length ≠ 8) :
    buildFrame dp pp d p = .error .eLen := by
  simp [buildFrame, h]

theorem buildFrame_eDevid {d : Byte} {p : List Byte} (pp : PbytePolicy) (h : p.length = 8) (hd : 0x7F < d.toNat) :
    buildFrame .reject pp d p = .error .eDevid := by
  simp [buildFrame, h, checkDevid, hd]

theorem buildFrame_ePbyte {d : Byte} {p : List Byte} (h : p.length = 8) (hd : d.toNat ≤ 0x7F)
    (hp : ¬ AllSevenBit p) : buildFrame .reject .reject d p = .error .ePbyte := by
  simp [buildFrame, h, checkDevid, checkPayload, (any_above_iff p).2 hp, show ¬ 127 < d.toNat by omega]

theorem buildFrame_ok {d : Byte} {p : List Byte} (h : p.length = 8) (hd : d.toNat ≤ 0x7F) (hp : AllSevenBit p) :
    buildFrame .reject .reject d p = .ok (frameBytes d p) := by
  simp [buildFrame, h, checkDevid, checkPayload, any_above_false hp, show ¬ 127 < d.toNat by omega]

/-- At the default policies a frame is built only from operands that pass every check. -/
theorem buildFrame_ok_inv {d : Byte} {p f : List Byte} (h : buildFrame .reject .reject d p = .ok f) :
    p.length = 8 ∧ d.toNat ≤ 0x7F ∧ AllSevenBit p ∧ f = frameBytes d p := by
  by_cases hl : p.length = 8
  · by_cases hd : 0x7F < d.toNat
    · rw [buildFrame_eDevid _ hl hd] at h; cases h
    · by_cases hp : AllSevenBit p
      · rw [buildFrame_ok hl (by omega) hp] at h; cases h
        exact ⟨hl, by omega, hp, rfl⟩
      · rw [buildFrame_ePbyte hl (by omega) hp] at h; cases h
  · rw [buildFrame_eLen _ _ hl] at h; cases h

/-- Under any policies a frame carries a device id and a payload whose low seven bits are the operands' (42 R151 to
R154). -/
theorem buildFrame_shape {dp : DevidPolicy} {pp : PbytePolicy} {d : Byte} {p f : List Byte}
    (h : buildFrame dp pp d p = .ok f) :
    p.length = 8 ∧ ∃ d' p', f = frameBytes d' p' ∧ p'.length = 8 ∧ p'.map low7 = p.map low7 ∧
      low7 d' = low7 d := by
  unfold buildFrame at h
  split at h
  · rename_i hl
    have hl' : p.length = 8 := hl
    refine ⟨hl, ?_⟩
    split at h
    · cases h
    · rename_i d' hd
      split at h
      · cases h
      · rename_i p' hp
        cases h
        refine ⟨d', p', rfl, ?_⟩
        have h1 : low7 d' = low7 d := by
          unfold checkDevid at hd
          split at hd
          · cases dp <;> cases hd
            simp
          · cases hd; rfl
        have h2 : p'.length = 8 ∧ p'.map low7 = p.map low7 := by
          unfold checkPayload at hp
          split at hp
          · split at hp <;> cases hp
            exact ⟨hl, rfl⟩
          · cases hp; simp [hl']
          · cases hp; exact ⟨hl, rfl⟩
        exact ⟨h2.1, h2.2, h1⟩
  · cases h

/-- A frame's bytes by place (42 R150). -/
theorem frameBytes_payload (d : Byte) {p : List Byte} (h : p.length = 8) :
    ((frameBytes d p).drop 6).take 8 = p := by
  simp [frameBytes, Config.prefixBytes, h]

theorem frameBytes_eq {d : Byte} (p : List Byte) (hd : d.toNat ≤ 0x7F) :
    frameBytes d p = [0xF0, 0x00, 0x21, 0x10, 0x77, d] ++ p ++ [BitVec.ofNat 8 (hashFrom 8 p % 128), 0xF7] := by
  simp [frameBytes, low7_of_le hd, ck_eq]

theorem selectorByte_ok {k : Byte} (h : k.toNat ≤ 1) :
    selectorByte k = .ok (if k.toNat = 0 then 0x20 else 0x30) := by
  unfold selectorByte
  split
  · rfl
  · rw [if_pos (by omega)]

theorem selectorByte_eSel {k : Byte} (h : 2 ≤ k.toNat) : selectorByte k = .error .eSel := by
  unfold selectorByte
  rw [if_neg (by omega), if_neg (by omega)]

theorem buildColor_ok {k : Byte} (r g b : Int) (h : k.toNat ≤ 1) :
    buildColor k r g b = .ok ([0x10, if k.toNat = 0 then 0x20 else 0x30] ++ colorBytes r g b ++ [0x03]) := by
  simp [buildColor, selectorByte_ok h]

theorem buildColor_eSel {k : Byte} (r g b : Int) (h : 2 ≤ k.toNat) : buildColor k r g b = .error .eSel := by
  simp [buildColor, selectorByte_eSel h]

theorem colorBytes_length (r g b : Int) : (colorBytes r g b).length = 5 := rfl

/-- The domain of decodeColor (40 R105; log 19). -/
theorem decodeColor_isSome (C : List Byte) : (decodeColor C).isSome = true ↔ C.length = 5 ∧ AllSevenBit C := by
  rcases C with _ | ⟨c0, _ | ⟨c1, _ | ⟨c2, _ | ⟨c3, _ | ⟨c4, _ | ⟨c5, C⟩⟩⟩⟩⟩⟩ <;>
    simp [decodeColor, AllSevenBit, apply_ite Option.isSome]

end Sys2Proof.Machine
end

