-- ==== Sys2Proof/Laws/PerInstr.lean ====
section
/-! SUPPORT. One lemma per constructor of Instr about its encoding (30 R62, R64). -/

namespace Sys2Proof.Laws

/-- An instruction's request opens with its opcode byte and has its format's length (R62, R64). -/
def EncodedForm.Statement (i : Instr) : Prop :=
  match i with
  | .enccol _ _ _ => (encode i).headD 0 = 0x01 ∧ (encode i).length = 7
  | .cksum p => (encode i).headD 0 = 0x02 ∧ (encode i).length = 1 + p.length
  | .bldfrm _ p => (encode i).headD 0 = 0x03 ∧ (encode i).length = 2 + p.length
  | .bldcol _ _ _ _ => (encode i).headD 0 = 0x04 ∧ (encode i).length = 8
  | .ckrst => (encode i).headD 0 = 0x05 ∧ (encode i).length = 1
  | .ckacc _ => (encode i).headD 0 = 0x06 ∧ (encode i).length = 2
  | .ckfin => (encode i).headD 0 = 0x07 ∧ (encode i).length = 1

theorem EncodedForm.enccol (r g b : Int) : EncodedForm.Statement (.enccol r g b) := ⟨rfl, rfl⟩

theorem EncodedForm.cksum (p : List Byte) : EncodedForm.Statement (.cksum p) :=
  ⟨rfl, by simp [encode, Nat.add_comm]⟩

theorem EncodedForm.bldfrm (d : Byte) (p : List Byte) : EncodedForm.Statement (.bldfrm d p) :=
  ⟨rfl, by simp [encode]; omega⟩

theorem EncodedForm.bldcol (sel : Byte) (r g b : Int) : EncodedForm.Statement (.bldcol sel r g b) := ⟨rfl, rfl⟩

theorem EncodedForm.ckrst : EncodedForm.Statement .ckrst := ⟨rfl, rfl⟩

theorem EncodedForm.ckacc (b : Byte) : EncodedForm.Statement (.ckacc b) := ⟨rfl, rfl⟩

theorem EncodedForm.ckfin : EncodedForm.Statement .ckfin := ⟨rfl, rfl⟩

end Sys2Proof.Laws
end

