-- ==== Sys2Proof/Laws/Runs.lean ====
section
/-! SUPPORT. Runs of requests: the ready FEU's step, serving in order, and the serial registers along a run (20 R50,
41 R125). -/

namespace Sys2Proof.Machine

/-- The step of a ready FEU (70 R244). -/
theorem step_of_ready {s : State} {q : Message} {rest : List Message} (h : FeuReady s q rest) :
    step s = .next { s with
      acc := (serialTo q s.acc s.cnt).1, cnt := (serialTo q s.acc s.cnt).2, reqq := rest,
      rspq := s.rspq ++ [answerTo q s.acc s.cnt], schedule := s.schedule.tail } := by
  obtain ⟨h1, h2, h3, h4⟩ := h
  rw [step_eq, h2, runMove_feu]
  exact feuTurn_process (s := { s with schedule := s.schedule.tail }) h1
    (by simpa [rspqHasRoom] using h3) (by simpa [requestFits] using h4)

theorem serve_of_decode_ok {q : Message} {i : Instr} (h : decode q = .ok i) (a : BitVec 8) (c : BitVec 4) :
    (serve q a c).1 = answer i a c := by
  simp [serve_eq, answerTo, h]

theorem serve_of_decode_error {q : Message} {e : ErrCode} (h : decode q = .error e) (a : BitVec 8) (c : BitVec 4) :
    (serve q a c).1 = [errByte e] := by
  simp [serve_eq, answerTo, h, errResponse]

/-- A request's error leaves the serial registers (60 R203). -/
theorem serialTo_of_error {q : Message} {a : BitVec 8} {c : BitVec 4}
    (h : ((answerTo q a c).headD 0).toNat ≠ 0) :
    (∃ e, answerTo q a c = [errByte e]) ∧ serialTo q a c = (a, c) := by
  unfold answerTo serialTo at *
  cases hd : decode q with
  | error e => exact ⟨⟨e, by simp [errResponse]⟩, by simp⟩
  | ok i =>
    simp only [hd] at h ⊢
    cases i with
    | bldcol k r g b =>
      cases hr : buildColor k r g b with
      | ok x => simp [answer, hr, resultResponse, okResponse] at h
      | error e => exact ⟨⟨e, by simp [answer, hr, resultResponse, errResponse]⟩, rfl⟩
    | bldfrm d p =>
      cases hr : buildFrame Config.devidPolicy Config.pbytePolicy d p with
      | ok x => simp [answer, hr, resultResponse, okResponse] at h
      | error e => exact ⟨⟨e, by simp [answer, hr, resultResponse, errResponse]⟩, rfl⟩
    | cksum p =>
      by_cases hh : p.length = 8
      · simp [answer, hh, okResponse] at h
      · exact ⟨⟨.eLen, by simp [answer, hh, errResponse]⟩, rfl⟩
    | ckfin =>
      by_cases hh : c.toNat = 8
      · simp [answer, hh, okResponse] at h
      · exact ⟨⟨.eLen, by simp [answer, hh, errResponse]⟩, rfl⟩
    | enccol r g b => simp [answer, okResponse] at h
    | ckrst => simp [answer, okResponse] at h
    | ckacc b => simp [answer, okResponse] at h

theorem serveAll_append (xs ys : List Message) (a : BitVec 8) (c : BitVec 4) :
    serveAll (xs ++ ys) a c =
      serveAll xs a c ++ serveAll ys (serialAfter xs a c).1 (serialAfter xs a c).2 := by
  induction xs generalizing a c with
  | nil => rfl
  | cons x xs ih => simp [serveAll, serialAfter, ih]

theorem serialAfter_append (xs ys : List Message) (a : BitVec 8) (c : BitVec 4) :
    serialAfter (xs ++ ys) a c = serialAfter ys (serialAfter xs a c).1 (serialAfter xs a c).2 := by
  induction xs generalizing a c with
  | nil => rfl
  | cons x xs ih => simp [serialAfter, ih]

/-- An instruction's own request does to the registers what the instruction does. -/
theorem serialTo_encode (i : Instr) (a : BitVec 8) (c : BitVec 4) :
    serialTo (encode i) a c = serialOf i a c := by
  cases i <;> rfl

/-- Along a run only CKRST and CKACC move the serial registers (10 R33). -/
theorem serialAfter_encode (is : List Instr) (a : BitVec 8) (c : BitVec 4) :
    serialAfter (is.map encode) a c =
      (is.filter writesHash).foldl (fun x i => serialOf i x.1 x.2) (a, c) := by
  induction is generalizing a c with
  | nil => rfl
  | cons i is ih =>
    simp only [List.map_cons, serialAfter, serve_eq, serialTo_encode]
    rw [ih]
    cases i <;> rfl

/-- A run of CKACC: the hash goes on, and the counter saturates (41 R126, R127). -/
theorem foldl_serialOf_ckacc (bs : List Byte) (a : BitVec 8) (c : BitVec 4) :
    (bs.map Instr.ckacc).foldl (fun x i => serialOf i x.1 x.2) (a, c) =
      (bs.foldl ckStep a, BitVec.ofNat 4 (min (c.toNat + bs.length) 15)) := by
  induction bs generalizing a c with
  | nil =>
    simp only [List.map_nil, List.foldl_nil, List.length_nil, Nat.add_zero, Prod.mk.injEq, true_and]
    apply BitVec.eq_of_toNat_eq
    rw [BitVec.toNat_ofNat]
    have := c.isLt
    omega
  | cons b bs ih =>
    rw [List.map_cons, List.foldl_cons]
    have := ih (ckStep a b) (cntSucc c)
    rw [show serialOf (Instr.ckacc b) a c = (ckStep a b, cntSucc c) from rfl, this]
    simp only [cntSucc_toNat, List.foldl_cons, List.length_cons]
    congr 2
    omega

end Sys2Proof.Machine
end

