-- ==== Sys2Proof/Tests/Slice0.lean ====
section
/-! SUPPORT. The model's own tests. Expected values are spec/95_test_vectors.md's or written out by hand from the rule the
comment names, and the witnesses that the statements' hypotheses can be met. -/

namespace Sys2Proof.Tests

open Sys2Proof Sys2Proof.Machine

/-- The last response in RSPQ after an outcome. -/
def response : Host.Outcome State Fault Refusal → Option Message
  | .next t => t.rspq.getLast?
  | .fault _ => none
  | .refused _ => none

/-- ACC and CNT after an outcome. -/
def registers : Host.Outcome State Fault Refusal → Option (BitVec 8 × BitVec 4)
  | .next t => some (t.acc, t.cnt)
  | .fault _ => none
  | .refused _ => none

/-- Right after reset, with one request in REQQ and the schedule empty: the FEU's turn. -/
def loaded (q : Message) : State := { State.reset with reqq := [q] }

/-- Right after reset, with the serial registers at given values. -/
def serial (a : BitVec 8) (c : BitVec 4) : State := { State.reset with acc := a, cnt := c }

/-- Right after reset, with one move scheduled. -/
def scheduled (m : Move) : State := { State.reset with schedule := [m] }

/-- Root key C's payload (95 T2). -/
def rootKeyC : List Byte := [0x10, 0x30, 0x03, 0, 0, 0, 0, 0]

/-! WellFormed refuses an ill-formed term at each check (R63: 32768 and -32769 are no S16 values). -/

theorem test_wf_accepts_extremes : (Instr.enccol (-32768) 32767 0).wf = true := by decide
theorem test_wf_enccol_red : (Instr.enccol 32768 0 0).wf = false := by decide
theorem test_wf_enccol_green : (Instr.enccol 0 (-32769) 0).wf = false := by decide
theorem test_wf_enccol_blue : (Instr.enccol 0 0 32768).wf = false := by decide
theorem test_wf_bldcol_red : (Instr.bldcol 0 (-32769) 0 0).wf = false := by decide
theorem test_wf_bldcol_green : (Instr.bldcol 0 0 32768 0).wf = false := by decide
theorem test_wf_bldcol_blue : (Instr.bldcol 0 0 0 (-32769)).wf = false := by decide

/-! Decoding, each constructor from bytes written out from R64 (R72, V1, V5). -/

theorem test_decode_enccol :
    decode [0x01, 0xFF, 0xFB, 0x01, 0x2C, 0x00, 0x80] = .ok (.enccol (-5) 300 128) := by decide
theorem test_decode_cksum : decode [0x02, 0x10, 0x30] = .ok (.cksum [0x10, 0x30]) := by decide
theorem test_decode_bldfrm : decode [0x03, 0x7F, 0x10] = .ok (.bldfrm 0x7F [0x10]) := by decide
theorem test_decode_bldcol :
    decode [0x04, 0x00, 0xFF, 0xFF, 0x03, 0xE7, 0x00, 0x07] = .ok (.bldcol 0 (-1) 999 7) := by decide
theorem test_decode_ckrst : decode [0x05] = .ok .ckrst := by decide
theorem test_decode_ckacc : decode [0x06, 0x7F] = .ok (.ckacc 0x7F) := by decide
theorem test_decode_ckfin : decode [0x07] = .ok .ckfin := by decide
theorem test_decode_empty : decode [] = .error .eOpc := by decide
theorem test_decode_reserved : decode [0x08] = .error .eOpc := by decide
theorem test_decode_short : decode [0x01, 0, 0, 0, 0, 0] = .error .eFmt := by decide
theorem test_decode_no_device : decode [0x03] = .error .eFmt := by decide

/-! The table's words. -/

theorem test_table_word_enccol : decodeTableWord 8 0x01 = some (.enccol 0 0 0) := by decide
theorem test_table_word_reserved : decodeTableWord 8 0x08 = none := by decide
theorem test_table_word_second_byte : decodeTableWord 16 0x7F06 = some (.ckacc 0x7F) := by decide
theorem test_table_word_runs :
    response (step (State.reset.withFetchWord 8 0x03)) =
      some [0, 0xF0, 0, 0x21, 0x10, 0x77, 0, 0, 0, 0, 0, 0, 0, 0, 0, 0x08, 0xF7] := by decide

/-! The operations (V1 to V5), through exec. -/

theorem test_enccol_clamps :
    response (exec (.enccol (-5) 300 128) State.reset) = some [0x00, 0x04, 0x21, 0x7F, 0x00, 0x7E] := by decide
theorem test_enccol_places :
    response (exec (.enccol 0x12 0x34 0x56) State.reset) = some [0x00, 0x44, 0x15, 0x1A, 0x12, 0x7E] := by decide
theorem test_cksum_scenario :
    response (exec (.cksum [0x10, 0x40, 0x02, 0, 0, 0, 0, 0]) State.reset) = some [0x00, 0x5E] := by decide
theorem test_cksum_length : response (exec (.cksum [0, 0, 0, 0, 0, 0, 0]) State.reset) = some [0x01] := by decide
theorem test_ckrst : registers (exec .ckrst (serial 0xDE 8)) = some (0x08, 0) := by decide
theorem test_ckacc_masks : registers (exec (.ckacc 0xB0) (serial 0x28 1)) = some (0xA8, 2) := by decide
theorem test_ckacc_saturates : registers (exec (.ckacc 0) (serial 0x5A 15)) = some (0x0E, 15) := by decide
theorem test_ckfin_answers : response (exec .ckfin (serial 0x41 8)) = some [0x00, 0x41] := by decide
theorem test_ckfin_refuses : response (exec .ckfin (serial 0x0E 15)) = some [0x01] := by decide
theorem test_bldfrm_largest_id : response (exec (.bldfrm 0x7F rootKeyC) State.reset) =
    some [0x00, 0xF0, 0x00, 0x21, 0x10, 0x77, 0x7F, 0x10, 0x30, 0x03, 0, 0, 0, 0, 0, 0x41, 0xF7] := by decide
theorem test_bldfrm_id_before_byte :
    response (exec (.bldfrm 0x80 [0x80, 0x80, 0x80, 0x80, 0x80, 0x80, 0x80, 0x80]) State.reset) =
      some [0x02] := by decide
theorem test_bldcol_root :
    response (exec (.bldcol 1 0 0 255) State.reset) =
      some [0x00, 0x10, 0x30, 0x64, 0x3F, 0x00, 0x00, 0x7E, 0x03] := by decide
theorem test_bldcol_selector : response (exec (.bldcol 2 0 0 0) State.reset) = some [0x06] := by decide

/-- V4's last three rows: the other policy values. -/
theorem test_policy_pbyte_mask : buildFrame .reject .mask 0 [0x80, 0x30, 0x03, 0, 0, 0, 0, 0] =
    .ok [0xF0, 0x00, 0x21, 0x10, 0x77, 0x00, 0x00, 0x30, 0x03, 0, 0, 0, 0, 0, 0x11, 0xF7] := by decide
theorem test_policy_pbyte_pass : buildFrame .reject .pass 0 [0x80, 0x30, 0x03, 0, 0, 0, 0, 0] =
    .ok [0xF0, 0x00, 0x21, 0x10, 0x77, 0x00, 0x80, 0x30, 0x03, 0, 0, 0, 0, 0, 0x11, 0xF7] := by decide
theorem test_policy_devid_mask : buildFrame .mask .reject 0x85 rootKeyC =
    .ok [0xF0, 0x00, 0x21, 0x10, 0x77, 0x05, 0x10, 0x30, 0x03, 0, 0, 0, 0, 0, 0x41, 0xF7] := by decide

/-! Reference functions, assembler, steps. -/

/-- V1: (1, 1, 1) decodes as (1, 1, 5). -/
theorem test_decode_color : decodeColor (colorBytes 1 1 1) = some (1, 1, 5) := by decide
/-- R105's domain ends at 0x7F. -/
theorem test_decode_color_domain : decodeColor [0x04, 0, 0x7F, 0x7F, 0x7F] = some (0xFF, 0xFE, 0) ∧
    decodeColor [0x04, 0, 0x80, 0, 0x7E] = none := by decide
theorem test_isFrame : isFrame
    [0xF0, 0x00, 0x21, 0x10, 0x77, 0x00, 0x10, 0x30, 0x03, 0, 0, 0, 0, 0, 0x41, 0xF7] = true := by decide
theorem test_isFrame_bad_checksum : isFrame
    [0xF0, 0x00, 0x21, 0x10, 0x77, 0x00, 0x10, 0x30, 0x03, 0, 0, 0, 0, 0, 0x42, 0xF7] = false := by decide
/-- P3, request 17. -/
theorem test_assemble_raw : assembleText "RAW 0x06, 0x01, 0x02".toList = some (.requests [[6, 1, 2]]) := by decide
theorem test_assemble_colfrm : assembleText "COLFRM ROOT, 255, 0, 0, 5".toList =
    some (.colorFrame [0x04, 0x01, 0x00, 0xFF, 0, 0, 0, 0] 0x05) := by decide
/-- R70's table: ROOT is selector 1. -/
theorem test_assemble_root : assembleText "BLDCOL ROOT, 0, 0, 255".toList =
    some (.requests [[0x04, 0x01, 0, 0, 0, 0, 0x00, 0xFF]]) := by decide
theorem test_assemble_refuses : assembleText "CKACC 256".toList = none := by decide
theorem test_assemble_trailing_comma : assembleText "CKSUM [1,]".toList = none := by decide
/-- V6: a wrong length answers E_FMT. -/
theorem test_step_format : response (step (loaded [0x06, 0x01, 0x02])) = some [0x05] := by decide
theorem test_step_enqueue : step (scheduled (.enqueue [0x07])) = .next (loaded [0x07]) := by rfl
theorem test_step_take_nothing : step (scheduled .take) = .fault .rspqEmpty := by rfl
theorem test_second_instance_moves : ∀ s t, step s = .next t →
    stepInstance 1 [State.reset, s] = .next [State.reset, t] := by
  intro s t h
  simp [stepInstance, h]

/-! Witnesses: a state and operands that meet each statement's hypotheses together, one per clause. -/

theorem loaded_ready (q : Message) (h : q.length ≤ 10) : FeuReady (loaded q) q [] :=
  ⟨rfl, rfl, by simp [loaded, State.reset, Config.rspqDepth], by rw [Config.reqMax]; omega⟩

theorem reset_has_room : State.reset.rspq.length < Config.rspqDepth := by decide

/-- A state whose RSPQ is full, whatever RSPQ_DEPTH is. -/
def full (q : Message) : State := { loaded q with rspq := List.replicate Config.rspqDepth [0x00] }

theorem full_is_full (q : Message) : Config.rspqDepth ≤ (full q).rspq.length := by simp [full]

theorem witness_OpcodeByteSelectsOperation :
    (0x00 : Byte).toNat = 0 ∧ (0x01 : Byte).toNat = 1 ∧ (0x02 : Byte).toNat = 2 ∧ (0x03 : Byte).toNat = 3 ∧
    (0x04 : Byte).toNat = 4 ∧ (0x05 : Byte).toNat = 5 ∧ (0x06 : Byte).toNat = 6 ∧ (0x07 : Byte).toNat = 7 ∧
    8 ≤ (0x08 : Byte).toNat ∧ 8 ≤ (0xFF : Byte).toNat := by decide
theorem witness_DecodeOfEncode : (Instr.bldcol 0xFF (-32768) 32767 255).wf = true := by decide
theorem witness_EncodeOfDecode : decode [0x06, 0x7F] = .ok (.ckacc 0x7F) := by decide
theorem witness_StepRunsTheDecodedRequest :
    FeuReady (loaded [0x07]) [0x07] [] ∧ decode [0x07] = .ok .ckfin := ⟨loaded_ready _ (by decide), by decide⟩
theorem witness_FeuStep_enabled : FeuReady (loaded [0x05]) [0x05] [] := loaded_ready _ (by decide)
theorem witness_FeuStep_idle : nextMove State.reset = .feu ∧ State.reset.reqq = [] ∧
    step State.reset = .next State.reset := ⟨rfl, rfl, rfl⟩
theorem witness_FeuStep_holds : nextMove (full [0x05]) = .feu ∧ (full [0x05]).reqq ≠ [] ∧
    Config.rspqDepth ≤ (full [0x05]).rspq.length ∧ step (full [0x05]) = .next (full [0x05]) :=
  ⟨rfl, by simp [full, loaded], full_is_full _,
    feuTurn_hold (s := full [0x05]) (by simp [rspqHasRoom, full])⟩
theorem witness_FeuStep_reset : nextMove (scheduled .reset) = .reset ∧
    step (scheduled .reset) = .next State.reset := ⟨rfl, rfl⟩
theorem witness_IdleOrHeldTurnChangesNothing : nextMove State.reset = .feu ∧ State.reset.reqq = [] ∧
    nextMove (full [0x05]) = .feu ∧ Config.rspqDepth ≤ (full [0x05]).rspq.length := ⟨rfl, rfl, rfl, full_is_full _⟩
/-- The shortest request over REQ_MAX. -/
theorem witness_OversizedRequestHasNoStep :
    Config.reqMax < (List.replicate (Config.reqMax + 1) (0 : Byte)).length ∧
    nextMove (scheduled (.enqueue (List.replicate (Config.reqMax + 1) 0))) =
      .enqueue (List.replicate (Config.reqMax + 1) 0) ∧
    (loaded (List.replicate (Config.reqMax + 1) 0)).reqq = [List.replicate (Config.reqMax + 1) 0] ∧
    nextMove (loaded (List.replicate (Config.reqMax + 1) 0)) = .feu ∧
    (loaded (List.replicate (Config.reqMax + 1) 0)).rspq.length < Config.rspqDepth :=
  ⟨by simp, rfl, rfl, rfl, by simp [loaded, State.reset, Config.rspqDepth]⟩
/-- A request of exactly REQ_MAX bytes may be sent. -/
theorem witness_QueueDisciplines_enqueue :
    nextMove (scheduled (.enqueue (List.replicate Config.reqMax 0))) = .enqueue (List.replicate Config.reqMax 0) ∧
    (List.replicate Config.reqMax (0 : Byte)).length ≤ Config.reqMax ∧
    (scheduled (.enqueue (List.replicate Config.reqMax 0))).reqq.length < Config.reqqDepth :=
  ⟨rfl, by simp, by simp [scheduled, State.reset, Config.reqqDepth]⟩
theorem witness_QueueDisciplines_full :
    let s : State := { scheduled (.enqueue [0x05]) with reqq := List.replicate Config.reqqDepth [0x05] }
    nextMove s = .enqueue [0x05] ∧ ([0x05] : Message).length ≤ Config.reqMax ∧ Config.reqqDepth ≤ s.reqq.length :=
  ⟨rfl, by simp [Config.reqMax], by simp⟩
theorem witness_QueueDisciplines_take :
    nextMove ({ scheduled .take with rspq := [[0x00]] } : State) = .take ∧
    ({ scheduled .take with rspq := [[0x00]] } : State).rspq = [0x00] :: [] ∧
    nextMove (scheduled .take) = .take ∧ (scheduled .take).rspq = [] := ⟨rfl, rfl, rfl, rfl⟩
theorem witness_QueueDisciplines_dequeue : FeuReady (loaded [0x05]) [0x05] [] := loaded_ready _ (by decide)
theorem witness_QueueDisciplines_hold : nextMove (full [0x05]) = .feu ∧
    Config.rspqDepth ≤ (full [0x05]).rspq.length ∧ step (full [0x05]) = .next (full [0x05]) := by
  refine ⟨rfl, full_is_full _, ?_⟩
  exact feuTurn_hold (s := full [0x05]) (by simp [rspqHasRoom, full])
theorem witness_ResetValues : nextMove (scheduled .reset) = .reset ∧ step (scheduled .reset) = .next State.reset ∧
    exec .ckrst (serial 0xDE 8) = .next { State.reset with rspq := [[0x00]] } := ⟨rfl, rfl, rfl⟩
theorem witness_ResetIsOneAction : nextMove ({ full [0x05] with schedule := [.reset] } : State) = .reset := rfl
theorem witness_ResetOwesNoResponse : nextMove (scheduled .reset) = .reset ∧
    step (scheduled .reset) = .next State.reset := ⟨rfl, rfl⟩
theorem witness_EnccolResponds :
    (Instr.enccol (-32768) 32767 256).wf = true ∧ State.reset.rspq.length < Config.rspqDepth ∧
    ([0, 0, 0, 0, 0] : List Byte).length ≠ 6 ∧ ([0, 0, 0, 0, 0, 0, 0] : List Byte).length ≠ 6 :=
  ⟨by decide, reset_has_room, by decide, by decide⟩
theorem witness_CksumResponds : State.reset.rspq.length < Config.rspqDepth ∧ rootKeyC.length = 8 ∧
    (rootKeyC.drop 1).length ≠ 8 ∧ (0 :: rootKeyC).length ≠ 8 := ⟨reset_has_room, by decide⟩
theorem witness_CkrstResponds : State.reset.rspq.length < Config.rspqDepth := reset_has_room
theorem witness_CkaccResponds : (serial 0xFF 15).rspq.length < Config.rspqDepth ∧ ([] : List Byte).length ≠ 1 ∧
    ([0, 0] : List Byte).length ≠ 1 := ⟨reset_has_room, by decide, by decide⟩
theorem witness_CkfinResponds : (serial 0x41 8).rspq.length < Config.rspqDepth ∧ (serial 0x41 8).cnt.toNat = 8 ∧
    (serial 0x41 7).cnt.toNat ≠ 8 ∧ (serial 0x41 9).cnt.toNat ≠ 8 := ⟨reset_has_room, by decide⟩
theorem witness_BldfrmResponds : rootKeyC.length = 8 ∧ (0x7F : Byte).toNat ≤ 0x7F ∧ AllSevenBit rootKeyC ∧
    State.reset.rspq.length < Config.rspqDepth :=
  ⟨by decide, by decide, by simp [AllSevenBit, rootKeyC], reset_has_room⟩
/-- A payload of the right length with one byte of 0x80. -/
theorem witness_BldfrmCheckOrder : State.reset.rspq.length < Config.rspqDepth ∧ (rootKeyC.drop 1).length ≠ 8 ∧
    (rootKeyC.length = 8 ∧ 0x7F < (0x80 : Byte).toNat) ∧
    ((rootKeyC.set 7 0x80).length = 8 ∧ (0x7F : Byte).toNat ≤ 0x7F ∧ ¬ AllSevenBit (rootKeyC.set 7 0x80)) :=
  ⟨reset_has_room, by decide, by decide, by decide, by decide, by simp [AllSevenBit, rootKeyC]⟩
theorem witness_BldcolResponds : (Instr.bldcol 0x01 (-1) 256 7).wf = true ∧ (0x01 : Byte).toNat ≤ 1 ∧
    State.reset.rspq.length < Config.rspqDepth := ⟨by decide, by decide, reset_has_room⟩
theorem witness_BldcolRefusesOtherSelectors : (Instr.bldcol 0x02 0 0 0).wf = true ∧ 2 ≤ (0x02 : Byte).toNat ∧
    2 ≤ (0xFF : Byte).toNat ∧ State.reset.rspq.length < Config.rspqDepth :=
  ⟨by decide, by decide, by decide, reset_has_room⟩
theorem witness_StatelessOperationsArePure : isStateless (.enccol 0 0 0) = true ∧ isStateless (.cksum []) = true ∧
    isStateless (.bldfrm 0 []) = true ∧ isStateless (.bldcol 0 0 0 0) = true ∧
    (∃ t, exec (.ckacc 1) State.reset = .next t ∧ t.acc ≠ State.reset.acc) := by
  refine ⟨rfl, rfl, rfl, rfl, _, rfl, by decide⟩
theorem witness_OperationFrame : State.reset.rspq.length < Config.rspqDepth ∧ writesHash .ckfin = false :=
  ⟨reset_has_room, rfl⟩
theorem witness_ResponseLengths_ok : exec .ckrst State.reset = .next { State.reset with rspq := [[0x00]] } := rfl
theorem witness_ResponseLengths_error : exec .ckfin State.reset = .next { State.reset with rspq := [[0x01]] } := rfl
theorem witness_ErrorsChangeNothingElse : FeuReady (loaded [0x07]) [0x07] [] ∧
    ((serve [0x07] (loaded [0x07]).acc (loaded [0x07]).cnt).1.headD 0).toNat ≠ 0 :=
  ⟨loaded_ready _ (by decide), by decide⟩
theorem witness_ErrorsChangeNothingElse_next :
    let s : State := { State.reset with reqq := [[0x07], [0x05]], schedule := [.feu, .take, .feu, .reset] }
    FeuReady s [0x07] [[0x05]] ∧ ((serve [0x07] s.acc s.cnt).1.headD 0).toNat ≠ 0 ∧ s.rspq = [] ∧
      s.schedule = .feu :: .take :: .feu :: [.reset] ∧ ([0x05] : Message).length ≤ Config.reqMax :=
  ⟨⟨rfl, rfl, by simp [State.reset, Config.rspqDepth], by simp [Config.reqMax]⟩, by decide, rfl,
    rfl, by simp [Config.reqMax]⟩
theorem witness_ErrorPriority : 8 ≤ (([0x08] : Message).headD 0).toNat ∧ (([0x00] : Message).headD 0).toNat = 0 ∧
    ((([0x01] : Message).headD 0).toNat = 1 ∧ ([0x01] : Message).length ≠ 7) ∧
    (([0x06, 0, 0] : Message).headD 0).toNat = 6 ∧ (rootKeyC.drop 1).length ≠ 8 ∧
    (rootKeyC.length = 8 ∧ 0x7F < (0x80 : Byte).toNat ∧ (0x7F : Byte).toNat ≤ 0x7F) ∧
    ¬ AllSevenBit (rootKeyC.set 0 0x80) ∧
    (([0, 0, 0, 0, 0, 0] : List Byte).length = 6 ∧ 2 ≤ (0x02 : Byte).toNat) ∧ (7 : BitVec 4).toNat ≠ 8 :=
  ⟨by decide, by decide, by decide, by decide, by decide, by decide, by simp [AllSevenBit, rootKeyC], by decide,
    by decide⟩
theorem witness_ChecksumSeesEverySingleByte : rootKeyC.length = 8 ∧ 7 < 8 ∧
    (0x01 : Byte).toNat % 128 ≠ (rootKeyC.getD 7 0).toNat % 128 := by decide
theorem witness_ChecksumIsSevenBitOfSevenBits : rootKeyC.length = 8 ∧
    rootKeyC.map (fun b => b.toNat % 128) = (rootKeyC.map (· ||| 0x80)).map (fun b => b.toNat % 128) := by decide
/-- P2: another operation and a CKFIN come between. -/
theorem witness_SerialRegistersAfterBytes :
    [Instr.ckrst, .ckacc 0x10, .enccol 0 0 255, .ckfin, .ckacc 0x30].filter writesHash =
      .ckrst :: [0x10, 0x30].map Instr.ckacc := by decide
theorem witness_SerialChecksumEqualsOneShot : rootKeyC.length = 8 ∧
    (.enccol 0 0 255 :: .ckrst :: rootKeyC.map Instr.ckacc).filter writesHash =
      .ckrst :: rootKeyC.map Instr.ckacc := by decide
theorem witness_SaturatedCounterNeverAnswers : (serial 0x5A 15).cnt.toNat = 15 ∧
    exec (.ckacc 0) (serial 0x5A 15) = .next { serial 0x0E 15 with rspq := [[0x00]] } ∧
    8 < (0 :: rootKeyC).length ∧
    ((0 :: rootKeyC).map Instr.ckacc).filter writesHash = (0 :: rootKeyC).map Instr.ckacc :=
  ⟨by decide, rfl, by decide, by decide⟩
theorem witness_CkfinIsNonDestructive : (8 : BitVec 4).toNat = 8 := by decide
/-- Two accumulators that differ in bit 7 alone. -/
theorem witness_AccBitSevenReachesNoResponse : (0xC1 : BitVec 8) ≠ 0x41 ∧
    (0xC1 : BitVec 8).toNat % 128 = (0x41 : BitVec 8).toNat % 128 := by decide
theorem witness_DeviceIdPolicies : rootKeyC.length = 8 ∧ 0x7F < (0x80 : Byte).toNat ∧ (0x7F : Byte).toNat ≤ 0x7F ∧
    AllSevenBit rootKeyC ∧ (∃ f, buildFrame .mask .pass 0x85 rootKeyC = .ok f) :=
  ⟨by decide, by decide, by decide, by simp [AllSevenBit, rootKeyC], ⟨_, rfl⟩⟩
theorem witness_PayloadBytePolicies : (rootKeyC.set 0 0x80).length = 8 ∧
    ((0x7F : Byte).toNat ≤ 0x7F ∨ DevidPolicy.reject = .mask) ∧ ((0xFF : Byte).toNat ≤ 0x7F ∨ DevidPolicy.mask = .mask) ∧
    ¬ AllSevenBit (rootKeyC.set 0 0x80) ∧ AllSevenBit rootKeyC :=
  ⟨by decide, .inl (by decide), .inr rfl, by simp [AllSevenBit, rootKeyC], by simp [AllSevenBit, rootKeyC]⟩
theorem witness_NoPartialFrame_ok :
    ∃ t, exec (.bldfrm 0 rootKeyC) State.reset = .next t ∧ (t.rspq.headD []).length = 17 := ⟨_, rfl, by decide⟩
theorem witness_NoPartialFrame_error : 0x7F < (0x80 : Byte).toNat ∧
    ∃ t, exec (.bldfrm 0x80 rootKeyC) State.reset = .next t := ⟨by decide, _, rfl⟩
theorem witness_FrameInvariantsUnderEveryPolicy :
    ∃ f, buildFrame .mask .pass 0xFF [0xFF, 0, 0, 0, 0, 0, 0, 0x80] = .ok f := ⟨_, rfl⟩
theorem witness_FramesAreExactlyIsFrame :
    ∃ f, buildFrame Config.devidPolicy Config.pbytePolicy 0 rootKeyC = .ok f ∧ isFrame f = true :=
  ⟨_, rfl, by decide⟩
theorem witness_ChecksumIgnoresDeviceId : (0x7F : Byte).toNat ≤ 0x7F ∧
    ∃ f, buildFrame Config.devidPolicy Config.pbytePolicy 0 rootKeyC = .ok f := ⟨by decide, _, rfl⟩
theorem witness_ColourPayloadShape : ∃ p, buildColor 0x01 (-1) 999 7 = .ok p := ⟨_, rfl⟩
theorem witness_ColfrmFramesForDeviceInRange : isS16 (-32768) = true ∧ isS16 32767 = true ∧ isS16 0 = true ∧
    (0 : Int) ≤ 0 ∧ (0 : Int) ≤ 0x7F ∧ (0x7F : Int) ≤ 0x7F ∧
    ¬ (isS16 (-32769) = true ∧ isS16 0 = true ∧ isS16 0 = true) ∧
    ¬ (isS16 0 = true ∧ isS16 32768 = true ∧ isS16 0 = true) ∧
    ¬ (isS16 0 = true ∧ isS16 0 = true ∧ isS16 32768 = true) := by decide
theorem witness_EveryStepKeepsInvariant : State.reset.Inv ∧ step State.reset = .next State.reset :=
  ⟨⟨by simp, by simp, by simp, by simp, by simp⟩, rfl⟩
theorem witness_FeuNeverStops : State.reset.Inv ∧ nextMove State.reset = .feu ∧
    (scheduled .take).Inv ∧ ¬ StepsSafely (scheduled .take) :=
  ⟨⟨by simp, by simp, by simp, by simp, by simp⟩, rfl,
    ⟨by simp [scheduled], by simp [scheduled], by simp [scheduled], by simp [scheduled], by simp [scheduled]⟩,
    fun ⟨_, h⟩ => nomatch h⟩
theorem witness_ResponsesComeInRequestOrder :
    (nextMove (loaded [0x05]) = .feu ∧ step (loaded [0x05]) = .next { State.reset with rspq := [[0x00]] }) ∧
    (nextMove (scheduled (.enqueue [0x07])) = .enqueue [0x07] ∧
      step (scheduled (.enqueue [0x07])) = .next (loaded [0x07])) ∧
    (nextMove ({ scheduled .take with rspq := [[0x00]] } : State) = .take ∧
      step { scheduled .take with rspq := [[0x00]] } = .next { State.reset with taken := [[0x00]] }) :=
  ⟨⟨rfl, rfl⟩, ⟨rfl, rfl⟩, ⟨rfl, rfl⟩⟩
theorem witness_SendEachGetsEveryResponse :
    let qs : List Message := [[0x05], [0x06, 0x10], [0x07]]
    let s : State := { State.reset with schedule := sendEach qs }
    (∀ q ∈ qs, q.length ≤ Config.reqMax) ∧ s.reqq = [] ∧ s.rspq = [] ∧ s.schedule = sendEach qs := by
  refine ⟨?_, rfl, rfl, rfl⟩
  simp [Config.reqMax]
theorem witness_FeuDrainsItsRequests : (loaded [0x05]).schedule = [] ∧
    (∀ q ∈ (loaded [0x05]).reqq, q.length ≤ Config.reqMax) ∧
    (loaded [0x05]).rspq.length + (loaded [0x05]).reqq.length ≤ Config.rspqDepth := by
  refine ⟨rfl, ?_, ?_⟩ <;> simp [loaded, State.reset, Config.reqMax, Config.rspqDepth]
theorem witness_InstancesAreIndependent : [State.reset, loaded [0x05]][1]? = some (loaded [0x05]) ∧
    step (loaded [0x05]) = .next { State.reset with rspq := [[0x00]] } := ⟨rfl, rfl⟩
theorem witness_AssemblerChecksRanges : isS16 (-32768) = true ∧ isS16 32767 = true ∧ isS16 0 = true := by decide
theorem witness_CkseqEndsInTheChecksum : rootKeyC.length = 8 := by decide
/-- Both ends of the range that BLDFRM refuses, and the values next to 0..255. -/
theorem witness_ColfrmOutOfRangeDevice : isS16 (-32768) = true ∧ isS16 32767 = true ∧ isS16 0 = true ∧
    ((0x80 : Int) ≤ 0x80 ∧ (0x80 : Int) ≤ 0xFF) ∧ ((0x80 : Int) ≤ 0xFF ∧ (0xFF : Int) ≤ 0xFF) ∧
    ((-1 : Int) < 0 ∨ (0xFF : Int) < -1) ∧ ((256 : Int) < 0 ∨ (0xFF : Int) < 256) := by decide

end Sys2Proof.Tests
end

section
/-! SUPPORT. How the request decoder reads each opcode's operands (30 R62 to R64, R68), and the obligations of
30_encoding.md about the opcode byte and the operand layouts. -/

namespace Sys2Proof.Machine

/-- The opcode byte's value alone selects how the bytes after it are read (R62). -/
theorem decode_cons (op : Byte) (x : List Byte) : decode (op :: x) = decodeOperands op.toNat x := rfl

theorem decodeEnccol_ok_or_eFmt (x : List Byte) :
    (∃ r g b, decodeEnccol x = .ok (.enccol r g b)) ∨ decodeEnccol x = .error .eFmt := by
  unfold decodeEnccol
  split
  · exact .inl ⟨_, _, _, rfl⟩
  · exact .inr rfl

theorem decodeBldfrm_ok_or_eFmt (x : List Byte) :
    (∃ d p, decodeBldfrm x = .ok (.bldfrm d p)) ∨ decodeBldfrm x = .error .eFmt := by
  cases x with
  | nil => exact .inr rfl
  | cons d p => exact .inl ⟨d, p, rfl⟩

theorem decodeBldcol_ok_or_eFmt (x : List Byte) :
    (∃ k r g b, decodeBldcol x = .ok (.bldcol k r g b)) ∨ decodeBldcol x = .error .eFmt := by
  unfold decodeBldcol
  split
  · exact .inl ⟨_, _, _, _, rfl⟩
  · exact .inr rfl

theorem decodeCkacc_ok_or_eFmt (x : List Byte) :
    (∃ b, decodeCkacc x = .ok (.ckacc b)) ∨ decodeCkacc x = .error .eFmt := by
  unfold decodeCkacc
  split
  · exact .inl ⟨_, rfl⟩
  · exact .inr rfl

theorem decodeBare_ok_or_eFmt (i : Instr) (x : List Byte) :
    decodeBare i x = .ok i ∨ decodeBare i x = .error .eFmt := by
  cases x with
  | nil => exact .inl rfl
  | cons b x => exact .inr rfl

/-- The reserved opcodes, whatever bytes follow them (R62, R68). -/
theorem decodeOperands_reserved {n : Nat} (x : List Byte) (h : n = 0 ∨ 8 ≤ n) :
    decodeOperands n x = .error .eOpc := by
  unfold decodeOperands
  split
  case h_8 => rfl
  all_goals omega

theorem s16Value_range (h l : Byte) : -32768 ≤ s16Value h l ∧ s16Value h l ≤ 32767 := by
  rw [← sext16_eq_s16Value, ← isS16_iff]
  exact isS16_sext16 h l

theorem decode_enccol_layout (rh rl gh gl bh bl : Byte) :
    decode [0x01, rh, rl, gh, gl, bh, bl] =
      .ok (.enccol (s16Value rh rl) (s16Value gh gl) (s16Value bh bl)) := by
  change Except.ok (Instr.enccol (sext16 rh rl) (sext16 gh gl) (sext16 bh bl)) = _
  simp only [sext16_eq_s16Value]

theorem decode_bldcol_layout (k rh rl gh gl bh bl : Byte) :
    decode [0x04, k, rh, rl, gh, gl, bh, bl] =
      .ok (.bldcol k (s16Value rh rl) (s16Value gh gl) (s16Value bh bl)) := by
  change Except.ok (Instr.bldcol k (sext16 rh rl) (sext16 gh gl) (sext16 bh bl)) = _
  simp only [sext16_eq_s16Value]

/-- Settles O2: the opcode byte's value picks the operand decoder, each of which answers its own operation or
E_FMT. -/
theorem opcodeByteSelectsOperation : Obligations.OpcodeByteSelectsOperation := by
  intro op x
  rw [decode_cons]
  refine ⟨fun h => ?enccol, fun h => ?cksum, fun h => ?bldfrm, fun h => ?bldcol, fun h => ?ckrst, fun h => ?ckacc,
    fun h => ?ckfin, decodeOperands_reserved x⟩ <;> rw [h]
  case enccol => exact decodeEnccol_ok_or_eFmt x
  case cksum => exact ⟨x, rfl⟩
  case bldfrm => exact decodeBldfrm_ok_or_eFmt x
  case bldcol => exact decodeBldcol_ok_or_eFmt x
  case ckrst => exact decodeBare_ok_or_eFmt .ckrst x
  case ckacc => exact decodeCkacc_ok_or_eFmt x
  case ckfin => exact decodeBare_ok_or_eFmt .ckfin x

/-- Settles O3: the channels by the two's-complement value of a byte pair, every other layout by the decoder's own
equation. -/
theorem requestLayoutsDecode : Obligations.RequestLayoutsDecode :=
  ⟨s16Value_range, decode_enccol_layout, fun _ => rfl, fun _ _ => rfl, decode_bldcol_layout, rfl, fun _ => rfl, rfl⟩

end Sys2Proof.Machine
end

section
/-! SUPPORT. ENCCOL's five bytes in plain arithmetic and their reference inverse, and the obligations of
40_color_codec.md about them. -/

namespace Sys2Proof.Machine

/-- ENCCOL takes exactly six operand bytes (R64). -/
theorem decodeEnccol_eFmt {x : List Byte} (h : x.length ≠ 6) : decodeEnccol x = .error .eFmt := by
  unfold decodeEnccol
  split
  · exact absurd rfl h
  · rfl

/-- The first colour byte: blue's two low bits above the mark 0x04 (R100). -/
theorem blueLow_mark (b : Byte) : ((b &&& 0x03) <<< 5) ||| Config.c1Mark = BitVec.ofNat 8 (b.toNat % 4 * 32 + 4) := by
  apply BitVec.eq_of_toNat_eq
  have hand : b.toNat &&& 3 = b.toNat % 4 := Nat.and_two_pow_sub_one_eq_mod b.toNat 2
  have hor : b.toNat % 4 * 32 ||| 4 = b.toNat % 4 * 32 + 4 := by
    rw [Nat.mul_comm]
    exact (Nat.two_pow_add_eq_or_of_lt (i := 5) (by omega) _).symm
  have hlt : b.toNat % 4 * 32 % 256 = b.toNat % 4 * 32 := by omega
  rw [BitVec.toNat_ofNat, Nat.mod_eq_of_lt (by omega)]
  simp [Config.c1Mark, Nat.shiftLeft_eq, hand, hlt, hor]

/-- The second colour byte: blue's six high bits, green's low bit sharing bit 0 (R100, R106). -/
theorem blueHigh_greenLow (b g : Byte) :
    (b >>> 2) ||| (g &&& 0x01) = BitVec.ofNat 8 (b.toNat / 4 ||| g.toNat % 2) := by
  apply BitVec.eq_of_toNat_eq
  have hlt : (b.toNat / 4 ||| g.toNat % 2) < 2 ^ 8 := Nat.or_lt_two_pow (by omega) (by omega)
  rw [BitVec.toNat_ofNat, Nat.mod_eq_of_lt hlt]
  simp [Nat.shiftRight_eq_div_pow]

/-- The third colour byte: green's seven high bits (R100, R107). -/
theorem greenHigh (g : Byte) : (g >>> 1) &&& 0x7F = BitVec.ofNat 8 (g.toNat / 2) := by
  apply BitVec.eq_of_toNat_eq
  have hlow := low7_toNat (g >>> 1)
  simp only [low7, BitVec.toNat_ushiftRight, Nat.shiftRight_eq_div_pow] at hlow
  rw [hlow, BitVec.toNat_ofNat]
  omega

/-- The fourth colour byte: red's seven low bits (R100). -/
theorem redLow (r : Byte) : r &&& 0x7F = BitVec.ofNat 8 (r.toNat % 128) := by
  apply BitVec.eq_of_toNat_eq
  have hlow : (r &&& 0x7F).toNat = r.toNat % 128 := low7_toNat r
  rw [hlow, BitVec.toNat_ofNat]
  omega

/-- The fifth colour byte: red's top bit below the mark 0x7E (R100, R108). -/
theorem redTop_mark (r : Byte) :
    ((r >>> 7) &&& 0x01) ||| Config.c5Mark = BitVec.ofNat 8 (r.toNat / 128 + 0x7E) := by
  have htop : (r >>> 7) &&& 0x01 = BitVec.ofNat 8 (r.toNat / 128) := by
    apply BitVec.eq_of_toNat_eq
    simp [Nat.shiftRight_eq_div_pow]
    omega
  have hbit : r.toNat / 128 = 0 ∨ r.toNat / 128 = 1 := by omega
  rw [htop]
  rcases hbit with h | h <;> rw [h] <;> rfl

/-- R100's five formulas on clamped channels, in plain arithmetic. -/
theorem packColor_eq (r g b : Byte) : packColor r g b =
    [BitVec.ofNat 8 (b.toNat % 4 * 32 + 4), BitVec.ofNat 8 (b.toNat / 4 ||| g.toNat % 2),
      BitVec.ofNat 8 (g.toNat / 2), BitVec.ofNat 8 (r.toNat % 128), BitVec.ofNat 8 (r.toNat / 128 + 0x7E)] := by
  rw [packColor, blueLow_mark, blueHigh_greenLow, greenHigh, redLow, redTop_mark]

theorem clamp255_toNat_eq_clampNat (v : Int) : (clamp255 v).toNat = clampNat v := clamp255_toNat v

theorem exec_enccol (r g b : Int) (s : State) :
    exec (.enccol r g b) s = .next { s with rspq := s.rspq ++ [0x00 :: colorBytes r g b] } :=
  exec_eq (.enccol r g b) s

/-- Settles O15: the decoder's own length check, then the execution law with R100's formulas on the clamped channels. -/
theorem enccolResponds : Obligations.EnccolResponds := by
  refine ⟨decode_enccol_layout, fun x h => decodeEnccol_eFmt h, fun r g b s _ _ => ?_⟩
  simp only [exec_enccol, colorBytes, packColor_eq, clamp255_toNat_eq_clampNat]

/-- Every colour byte is a 7-bit value (R101). -/
theorem packColor_sevenBit (r g b : Byte) : AllSevenBit (packColor r g b) := by
  have hc1 : (b.toNat / 4 ||| g.toNat % 2) < 2 ^ 6 := Nat.or_lt_two_pow (by omega) (by omega)
  simp only [AllSevenBit, packColor_eq, List.forall_mem_cons, BitVec.toNat_ofNat]
  refine ⟨by omega, by omega, by omega, by omega, by omega, by simp⟩

/-- The bit that green's bit 0 and blue's bit 2 share, `m = G0 | B2` (R105). -/
def sharedBit (g b : Byte) : Byte := (g ||| (b >>> 2)) &&& 0x01

theorem sharedBit_toNat (g b : Byte) :
    (sharedBit g b).toNat = if g.toNat % 2 = 1 ∨ b.toNat / 4 % 2 = 1 then 1 else 0 := by
  have hmod : (sharedBit g b).toNat = (g.toNat % 2 ||| b.toNat / 4 % 2) := by
    simp [sharedBit, Nat.shiftRight_eq_div_pow, Nat.or_mod_two_pow (n := 1)]
  rw [hmod]
  rcases Nat.mod_two_eq_zero_or_one g.toNat with hg | hg <;>
    rcases Nat.mod_two_eq_zero_or_one (b.toNat / 4) with hb | hb <;> simp [hg, hb]

/-- R105's three formulas, on the domain where it gives them. -/
theorem decodeColor_of_sevenBit {c0 c1 c2 c3 c4 : Byte} (h : AllSevenBit [c0, c1, c2, c3, c4]) :
    decodeColor [c0, c1, c2, c3, c4] = some (c3 ||| ((c4 &&& 0x01) <<< 7), (c2 <<< 1) ||| (c1 &&& 0x01),
      ((c1 &&& 0x3F) <<< 2) ||| ((c0 >>> 5) &&& 0x03)) :=
  if_pos (by simpa [AllSevenBit] using h)

/-- R105's inverse on the colour code of any three bytes: the code is in its domain, and bit by bit only the shared bit
differs. -/
theorem decodeColor_packColor (r g b : Byte) : decodeColor (packColor r g b) =
    some (r, (g &&& 0xFE) ||| sharedBit g b, (b &&& 0xFB) ||| (sharedBit g b <<< 2)) := by
  rw [packColor, decodeColor_of_sevenBit (packColor_sevenBit r g b)]
  refine congrArg some (Prod.ext ?red (Prod.ext ?green ?blue)) <;> rw [byte_eq_iff]
  case red => simp [Config.c5Mark]
  case green => simp [sharedBit, Bool.or_comm]
  case blue => simp [sharedBit, Config.c1Mark, Bool.or_comm]

/-- Settles O32: the inverse of the packed clamped channels, with `m` their shared bit. -/
theorem decodeColorRecovers : Obligations.DecodeColorRecovers := by
  intro r g b
  refine ⟨sharedBit (clamp255 g) (clamp255 b), ?_, ?_⟩
  · simp only [sharedBit_toNat, clamp255_toNat_eq_clampNat]
  · simp only [colorBytes, decodeColor_packColor, ← clamp255_eq]

end Sys2Proof.Machine
end

section
/-! SUPPORT. The checksum generator's operations in plain arithmetic, the serial registers along a run of CKACC, and the
obligations of 41_checksum.md about them. -/

namespace Sys2Proof.Machine

/-! The requests of the checksum operations (30 R64). -/

/-- An operation without operands takes exactly its opcode byte. -/
theorem decodeBare_eq (i : Instr) (x : List Byte) :
    decodeBare i x = if x = [] then .ok i else .error .eFmt := by
  cases x with
  | nil => rfl
  | cons b x => rfl

/-- CKACC takes exactly one operand byte. -/
theorem decodeCkacc_eFmt {x : List Byte} (h : x.length ≠ 1) : decodeCkacc x = .error .eFmt := by
  unfold decodeCkacc
  split
  · exact absurd rfl h
  · rfl

/-! What each operation answers and writes, in plain arithmetic (41 R120 to R128). -/

/-- The 7-bit mask as a byte. -/
theorem low7_eq (b : Byte) : low7 b = BitVec.ofNat 8 (b.toNat % 128) := redLow b

/-- The hash step of R126 as a byte. -/
theorem ckStep_eq (a b : BitVec 8) : ckStep a b = BitVec.ofNat 8 ((a.toNat * 3 + b.toNat % 128) % 256) := by
  rw [ckStep, low7_toNat]

theorem answer_cksum_ok {p : List Byte} (h : p.length = 8) (a : BitVec 8) (c : BitVec 4) :
    answer (.cksum p) a c = [0x00, BitVec.ofNat 8 (hashFrom 8 p % 128)] := by
  rw [answer, if_pos h, ck_eq]; rfl

theorem answer_cksum_eLen {p : List Byte} (h : p.length ≠ 8) (a : BitVec 8) (c : BitVec 4) :
    answer (.cksum p) a c = [0x01] := by
  rw [answer, if_neg h]; rfl

theorem answer_ckfin_ok (a : BitVec 8) {c : BitVec 4} (h : c.toNat = 8) :
    answer .ckfin a c = [0x00, BitVec.ofNat 8 (a.toNat % 128)] := by
  rw [answer, if_pos h, low7_eq]; rfl

theorem answer_ckfin_eLen (a : BitVec 8) {c : BitVec 4} (h : c.toNat ≠ 8) : answer .ckfin a c = [0x01] := by
  rw [answer, if_neg h]; rfl

theorem exec_cksum (p : List Byte) (s : State) :
    exec (.cksum p) s = .next { s with rspq := s.rspq ++ [answer (.cksum p) s.acc s.cnt] } :=
  exec_eq (.cksum p) s

theorem exec_ckacc (b : Byte) (s : State) :
    exec (.ckacc b) s =
      .next { s with acc := ckStep s.acc b, cnt := cntSucc s.cnt, rspq := s.rspq ++ [[0x00]] } :=
  exec_eq (.ckacc b) s

theorem exec_ckfin (s : State) :
    exec .ckfin s = .next { s with rspq := s.rspq ++ [answer .ckfin s.acc s.cnt] } :=
  exec_eq .ckfin s

/-! The serial operations as requests, and runs of them (20 R50, 41 R125). -/

theorem serve_ckfin (a : BitVec 8) (c : BitVec 4) : serve (encode .ckfin) a c = (answer .ckfin a c, a, c) :=
  serve_eq (encode .ckfin) a c

theorem serve_ckacc (b : Byte) (a : BitVec 8) (c : BitVec 4) :
    serve (encode (.ckacc b)) a c = ([0x00], ckStep a b, cntSucc c) :=
  serve_eq (encode (.ckacc b)) a c

/-- The last response of a run is its last request's, from the registers the requests before it leave. -/
theorem serveAll_concat_getLast? (qs : List Message) (q : Message) (a : BitVec 8) (c : BitVec 4) :
    (serveAll (qs ++ [q]) a c).getLast? =
      some (serve q (serialAfter qs a c).1 (serialAfter qs a c).2).1 := by
  rw [serveAll_append, serveAll, serveAll, List.getLast?_concat]

/-- The serial registers after CKACCs, whatever operations that do not write them come between (R125, R127). -/
theorem serialAfter_of_filter_ckacc {is : List Instr} {bs : List Byte}
    (h : is.filter writesHash = bs.map Instr.ckacc) (a : BitVec 8) (c : BitVec 4) :
    serialAfter (is.map encode) a c =
      (bs.foldl ckStep a, BitVec.ofNat 4 (min (c.toNat + bs.length) 15)) := by
  rw [serialAfter_encode, h, foldl_serialOf_ckacc]

/-! The obligations. -/

/-- Settles O16: CKSUM writes no register, and its answer is the hash or E_LEN by the payload's length. -/
theorem cksumResponds : Obligations.CksumResponds := by
  refine ⟨fun _ => rfl, fun p s _ => ⟨fun h => ?_, fun h => ?_⟩⟩ <;> rw [exec_cksum]
  · rw [answer_cksum_ok h]
  · rw [answer_cksum_eLen h]

/-- Settles O17: the decoder of an operation without operands, then the execution law, at the reset values. -/
theorem ckrstResponds : Obligations.CkrstResponds :=
  ⟨decodeBare_eq .ckrst, fun s _ => exec_eq .ckrst s, rfl, rfl⟩

/-- Settles O18: the decoder's length check, then the hash step in plain arithmetic; the counter's formula is R23's as it
stands. -/
theorem ckaccResponds : Obligations.CkaccResponds := by
  refine ⟨fun _ => rfl, fun x h => decodeCkacc_eFmt h, fun b s _ => ?_⟩
  rw [exec_ckacc, ckStep_eq, cntSucc]

/-- Settles O19: CKFIN writes no register, and its answer is ACC's low seven bits or E_LEN by the counter. -/
theorem ckfinResponds : Obligations.CkfinResponds := by
  refine ⟨decodeBare_eq .ckfin, fun s _ => ⟨fun h => ?_, fun h => ?_⟩⟩ <;> rw [exec_ckfin]
  · rw [answer_ckfin_ok _ h]
  · rw [answer_ckfin_eLen _ h]

/-- Settles O38: the saturated increment stays at 15; and after more than eight CKACC the counter is `min (c + n) 15` with
`8 < n`, never the 8 that CKFIN asks for. -/
theorem saturatedCounterNeverAnswers : Obligations.SaturatedCounterNeverAnswers := by
  refine ⟨fun b s t hc h => ?_, fun is bs a c hlen hf => ?_⟩
  · rw [exec_ckacc] at h
    cases h
    exact ⟨by rw [cntSucc_toNat, hc]; rfl, ckStep_toNat s.acc b⟩
  · rw [List.map_append, List.map_singleton, serveAll_concat_getLast?, serialAfter_of_filter_ckacc hf, serve_ckfin]
    have hcnt : (BitVec.ofNat 4 (min (c.toNat + bs.length) 15)).toNat ≠ 8 := by
      rw [BitVec.toNat_ofNat]; omega
    rw [answer_ckfin_eLen _ hcnt]

/-- Settles O39: CKFIN leaves the registers it answers from, so the second CKFIN sees what the first saw, and a CKACC
between them moves the counter from 8 to 9. -/
theorem ckfinIsNonDestructive : Obligations.CkfinIsNonDestructive := by
  intro a c b
  refine ⟨⟨answer .ckfin a c, by simp only [serveAll, serve_ckfin]⟩, by simp only [serialAfter, serve_ckfin],
    fun hc => ?_⟩
  have hnine : (cntSucc c).toNat = 9 := by rw [cntSucc_toNat, hc]; rfl
  have hnot : (cntSucc c).toNat ≠ 8 := by omega
  simp only [serveAll, serialAfter, serve_ckfin, serve_ckacc]
  exact ⟨by rw [answer_ckfin_ok a hc, answer_ckfin_eLen _ hnot], ckStep_toNat a b, hnine⟩

/-! The frame's checksum byte (41 R132, 42 R150). -/

/-- A frame's byte 14 is its payload's checksum. -/
theorem frameBytes_checksum (d : Byte) {p : List Byte} (h : p.length = 8) : (frameBytes d p).getD 14 0 = ck p := by
  simp [frameBytes, h]

/-- The device id stands in byte 5 of a frame and nowhere else. -/
theorem frameBytes_set_devid (d : Byte) {d' : Byte} (p : List Byte) (h : d'.toNat ≤ 0x7F) :
    (frameBytes d p).set 5 d' = frameBytes d' p := by
  conv_lhs => rw [← low7_of_le h]
  rfl

/-- Settles O46: a built frame is `frameBytes` of operands that pass every check, and only byte 5 of those bytes depends
on the device id. -/
theorem checksumIgnoresDeviceId : Obligations.ChecksumIgnoresDeviceId := by
  intro d d' p f hd' hf
  obtain ⟨hlen, -, hp, rfl⟩ := buildFrame_ok_inv hf
  refine ⟨?_, ?_⟩
  · rw [frameBytes_checksum d hlen, frameBytes_payload d hlen]
  · rw [frameBytes_set_devid d p hd']
    exact buildFrame_ok hlen hd' hp

end Sys2Proof.Machine
end

section
/-! SUPPORT. The frame encoder's checks under every policy, what BLDFRM answers, and the obligations of
42_frame_encoder.md about them. -/

namespace Sys2Proof.Machine

/-! The two policy checks and the frame built behind them (42 R151, R153, R154). -/

/-- Below 0x80 the device id passes as it is under either policy. -/
theorem checkDevid_of_le (dp : DevidPolicy) {d : Byte} (h : d.toNat ≤ 0x7F) : checkDevid dp d = .ok d :=
  if_neg (by omega)

/-- MASK refuses no device id; where it changes nothing, the low seven bits are the id itself. -/
theorem checkDevid_mask (d : Byte) : checkDevid .mask d = .ok (low7 d) := by
  by_cases h : 0x7F < d.toNat
  · exact if_pos h
  · have hle : d.toNat ≤ 0x7F := by omega
    rw [checkDevid_of_le .mask hle, low7_of_le hle]

/-- REJECT refuses a payload with a byte above 0x7F. -/
theorem checkPayload_reject_ePbyte {p : List Byte} (h : ¬ AllSevenBit p) : checkPayload .reject p = .error .ePbyte :=
  if_pos ((any_above_iff p).2 h)

/-- A payload in range passes as it is under every policy. -/
theorem checkPayload_of_sevenBit (pp : PbytePolicy) {p : List Byte} (h : AllSevenBit p) :
    checkPayload pp p = .ok p := by
  cases pp with
  | reject => simp [checkPayload, any_above_false h]
  | mask => rw [checkPayload, map_low7_of_sevenBit h]
  | pass => rfl

theorem frameBytes_low7 (d : Byte) (p : List Byte) : frameBytes (low7 d) p = frameBytes d p := by
  simp only [frameBytes, low7_low7]

theorem frameBytes_devid (d : Byte) (p : List Byte) : (frameBytes d p).getD 5 0 = low7 d := rfl

theorem frameBytes_length (d : Byte) {p : List Byte} (h : p.length = 8) : (frameBytes d p).length = 16 := by
  simp [frameBytes, h]

/-- Past the length and the device id, the payload's check alone decides: the frame's own 7-bit field makes MASK's id
and the given one the same frame. -/
theorem buildFrame_of_devid_passes {dp : DevidPolicy} {d : Byte} {p : List Byte} (pp : PbytePolicy) (h : p.length = 8)
    (hd : d.toNat ≤ 0x7F ∨ dp = .mask) : buildFrame dp pp d p = (checkPayload pp p).map (frameBytes d) := by
  have hpass : ∃ d', checkDevid dp d = .ok d' ∧ frameBytes d' = frameBytes d := by
    rcases hd with hle | rfl
    · exact ⟨d, checkDevid_of_le dp hle, rfl⟩
    · exact ⟨low7 d, checkDevid_mask d, funext (frameBytes_low7 d)⟩
  obtain ⟨d', hcheck, hframe⟩ := hpass
  rw [buildFrame, if_pos h, hcheck, ← hframe]
  cases checkPayload pp p <;> rfl

/-! BLDFRM's answer (42 R150, R155, R156). -/

theorem exec_bldfrm (d : Byte) (p : List Byte) (s : State) :
    exec (.bldfrm d p) s =
      .next { s with rspq := s.rspq ++ [resultResponse (buildFrame .reject .reject d p)] } :=
  exec_eq (.bldfrm d p) s

/-- Settles O20: operands that pass every check build the frame, whose 7-bit device id is the one given. -/
theorem bldfrmResponds : Obligations.BldfrmResponds := by
  intro d p s hlen hd hp _
  rw [exec_bldfrm, buildFrame_ok hlen hd hp, frameBytes_eq p hd]
  rfl

/-- Settles O21: the frame builder's three refusals in the order of its checks, each answered by its code. -/
theorem bldfrmCheckOrder : Obligations.BldfrmCheckOrder := by
  intro d p s _
  refine ⟨fun hlen => ?_, fun hlen hd => ?_, fun hlen hd hp => ?_⟩ <;> rw [exec_bldfrm]
  · rw [buildFrame_eLen _ _ hlen]; rfl
  · rw [buildFrame_eDevid _ hlen hd]; rfl
  · rw [buildFrame_ePbyte hlen hd hp]; rfl

/-- Settles O43: by the builder's result. A frame is built only from operands that pass every check, and an error is
answered by its code alone, which is never OK. -/
theorem noPartialFrame : Obligations.NoPartialFrame := by
  intro d p s t h
  rw [exec_bldfrm] at h
  cases h
  refine ⟨_, rfl, ?_⟩
  cases hb : buildFrame .reject .reject d p with
  | ok f =>
    obtain ⟨hlen, hd, hp, rfl⟩ := buildFrame_ok_inv hb
    refine ⟨fun hfail => ?_, fun _ => congrArg (· + 1) (frameBytes_length d hlen)⟩
    rcases hfail with hlen' | hd' | hp'
    · exact absurd hlen hlen'
    · omega
    · exact absurd hp hp'
  | error e =>
    have hne : (errByte e).toNat ≠ 0 := fun h0 => errByte_ne_ok e (BitVec.eq_of_toNat_eq h0)
    exact ⟨fun _ => ⟨rfl, hne⟩, fun h0 => absurd h0 hne⟩

/-! The policies. -/

/-- Settles O41: REJECT's refusal, then an id that passes leaves the answer to the payload's check; any frame's byte 5
is the id's low seven bits, whatever both policies did. -/
theorem deviceIdPolicies : Obligations.DeviceIdPolicies := by
  intro pp d p hlen
  refine ⟨fun hd => buildFrame_eDevid pp hlen hd, fun hd => ?agree, fun dp f hf => ?lowSeven, fun hp => ?maskBuilds⟩
  case agree =>
    rw [buildFrame_of_devid_passes pp hlen (.inl hd), buildFrame_of_devid_passes pp hlen (.inl hd)]
  case lowSeven =>
    obtain ⟨-, d', p', rfl, -, -, hd'⟩ := buildFrame_shape hf
    rw [frameBytes_devid, hd', low7_toNat]
  case maskBuilds =>
    rw [buildFrame_of_devid_passes pp hlen (.inr rfl), checkPayload_of_sevenBit pp hp]
    exact ⟨_, rfl⟩

/-- Settles O42: the device id passes, so each policy's answer is its payload check's, framed. -/
theorem payloadBytePolicies : Obligations.PayloadBytePolicies := by
  intro dp d p hlen hd
  simp only [buildFrame_of_devid_passes _ hlen hd]
  refine ⟨fun hp => ?reject, ⟨_, rfl, ?mask⟩, ⟨_, rfl, frameBytes_payload d hlen⟩, fun hp => ?inRange⟩
  case reject => rw [checkPayload_reject_ePbyte hp]; rfl
  case mask =>
    rw [frameBytes_payload d (by rw [List.length_map, hlen]), List.map_map]
    exact List.map_congr_left fun b _ => low7_toNat b
  case inRange =>
    simp only [checkPayload_of_sevenBit _ hp, and_self]

end Sys2Proof.Machine
end

section
/-! SUPPORT. What each failing check of a request answers, in the order of the checks, and the obligation of
60_exceptions.md about which error answers. -/

namespace Sys2Proof.Machine

/-! The decoder's checks: first the opcode, then the length (30 R64, R68, R69). -/

/-- BLDCOL takes exactly seven operand bytes (R64). -/
theorem decodeBldcol_eFmt {x : List Byte} (h : x.length ≠ 7) : decodeBldcol x = .error .eFmt := by
  unfold decodeBldcol
  split
  · exact absurd rfl h
  · rfl

/-- An operation without operands takes no operand byte (R64). -/
theorem decodeBare_eFmt (i : Instr) {x : List Byte} (h : x.length ≠ 0) : decodeBare i x = .error .eFmt :=
  (decodeBare_eq i x).trans (if_neg fun hx => h (List.length_eq_zero_iff.2 hx))

theorem decode_eOpc {q : Message} (h : q = [] ∨ (q.headD 0).toNat = 0 ∨ 8 ≤ (q.headD 0).toNat) :
    decode q = .error .eOpc := by
  cases q with
  | nil => rfl
  | cons op x => exact decodeOperands_reserved x (h.resolve_left (List.cons_ne_nil op x))

/-- Each opcode's own length check fails the request, whatever its other bytes are. -/
theorem decode_eFmt {q : Message}
    (h : ((q.headD 0).toNat = 1 ∧ q.length ≠ 7) ∨ ((q.headD 0).toNat = 3 ∧ q.length < 2) ∨
      ((q.headD 0).toNat = 4 ∧ q.length ≠ 8) ∨ ((q.headD 0).toNat = 5 ∧ q.length ≠ 1) ∨
      ((q.headD 0).toNat = 6 ∧ q.length ≠ 2) ∨ ((q.headD 0).toNat = 7 ∧ q.length ≠ 1)) :
    decode q = .error .eFmt := by
  cases q with
  | nil => simp at h
  | cons op x =>
    simp only [List.headD_cons, List.length_cons] at h
    rw [decode_cons]
    rcases h with ⟨hop, hlen⟩ | ⟨hop, hlen⟩ | ⟨hop, hlen⟩ | ⟨hop, hlen⟩ | ⟨hop, hlen⟩ | ⟨hop, hlen⟩ <;> rw [hop]
    · exact decodeEnccol_eFmt (by omega)
    · obtain rfl : x = [] := List.length_eq_zero_iff.1 (by omega)
      rfl
    · exact decodeBldcol_eFmt (by omega)
    · exact decodeBare_eFmt .ckrst (by omega)
    · exact decodeCkacc_eFmt (by omega)
    · exact decodeBare_eFmt .ckfin (by omega)

/-- A BLDCOL request of the right length decodes, whatever its selector: the selector is the operation's check (R69). -/
theorem decode_bldcol_of_length (k : Byte) {x : List Byte} (h : x.length = 6) :
    ∃ r g b, decode (0x04 :: k :: x) = .ok (.bldcol k r g b) :=
  match x, h with
  | [_, _, _, _, _, _], _ => ⟨_, _, _, rfl⟩

/-! The builders' checks, as answers (42 R155, 43 R171). -/

theorem serve_bldfrm (d : Byte) (p : List Byte) (a : BitVec 8) (c : BitVec 4) :
    (serve (0x03 :: d :: p) a c).1 = resultResponse (buildFrame .reject .reject d p) :=
  serve_of_decode_ok (i := .bldfrm d p) rfl a c

theorem answer_bldcol_eSel {k : Byte} (h : 2 ≤ k.toNat) (r g b : Int) (a : BitVec 8) (c : BitVec 4) :
    answer (.bldcol k r g b) a c = [0x06] := by
  rw [answer, buildColor_eSel r g b h]; rfl

/-- Settles O28: the decoder's two checks come first and in that order; a request that decodes is answered by its
operation's first failing check. -/
theorem errorPriority : Obligations.ErrorPriority := by
  intro q a c
  refine ⟨fun h => serve_of_decode_error (decode_eOpc h) a c, fun h => serve_of_decode_error (decode_eFmt h) a c,
    ?devLen, ?devId, ?payloadByte, ?selector, ?cksumLen, ?ckfinCount⟩
  case devLen =>
    rintro d p rfl hlen
    rw [serve_bldfrm, buildFrame_eLen _ _ hlen]; rfl
  case devId =>
    rintro d p rfl hlen hd
    rw [serve_bldfrm, buildFrame_eDevid _ hlen hd]; rfl
  case payloadByte =>
    rintro d p rfl hlen hd hp
    rw [serve_bldfrm, buildFrame_ePbyte hlen hd hp]; rfl
  case selector =>
    rintro k x rfl hlen hk
    obtain ⟨r, g, b, hdec⟩ := decode_bldcol_of_length k hlen
    rw [serve_of_decode_ok hdec, answer_bldcol_eSel hk]
  case cksumLen =>
    rintro p rfl hlen
    rw [serve_of_decode_ok (i := .cksum p) rfl, answer_cksum_eLen hlen]
  case ckfinCount =>
    rintro rfl hc
    rw [serve_of_decode_ok (i := .ckfin) rfl, answer_ckfin_eLen a hc]

end Sys2Proof.Machine
end

section
/-! SUPPORT. The decoder and the encoder as inverses of each other, and exactly which requests the decoder refuses:
the other obligations of 30_encoding.md about requests. -/

namespace Sys2Proof.Machine

/-! From an instruction to its request and back (30 R64, R70). -/

/-- The six bytes of three S16 operands read back as those operands. -/
theorem decodeEnccol_s16Bytes {r g b : Int} (hr : isS16 r = true) (hg : isS16 g = true) (hb : isS16 b = true) :
    decodeEnccol (s16Bytes r ++ s16Bytes g ++ s16Bytes b) = .ok (.enccol r g b) := by
  conv_rhs => rw [← sext16_s16Bytes hr, ← sext16_s16Bytes hg, ← sext16_s16Bytes hb]
  rfl

theorem decodeBldcol_s16Bytes (k : Byte) {r g b : Int} (hr : isS16 r = true) (hg : isS16 g = true)
    (hb : isS16 b = true) : decodeBldcol (k :: (s16Bytes r ++ s16Bytes g ++ s16Bytes b)) = .ok (.bldcol k r g b) := by
  conv_rhs => rw [← sext16_s16Bytes hr, ← sext16_s16Bytes hg, ← sext16_s16Bytes hb]
  rfl

theorem wf_enccol_iff (r g b : Int) :
    (Instr.enccol r g b).wf = true ↔ isS16 r = true ∧ isS16 g = true ∧ isS16 b = true := by
  simp [Instr.wf, and_assoc]

theorem wf_bldcol_iff (k : Byte) (r g b : Int) :
    (Instr.bldcol k r g b).wf = true ↔ isS16 r = true ∧ isS16 g = true ∧ isS16 b = true := by
  simp [Instr.wf, and_assoc]

/-- Settles O5: only the channels are more than bytes copied, and an S16 value's two bytes read back as that value. -/
theorem decodeOfEncode : Obligations.DecodeOfEncode := by
  intro i hwf
  cases i with
  | enccol r g b =>
    obtain ⟨hr, hg, hb⟩ := (wf_enccol_iff r g b).1 hwf
    exact decodeEnccol_s16Bytes hr hg hb
  | bldcol k r g b =>
    obtain ⟨hr, hg, hb⟩ := (wf_bldcol_iff k r g b).1 hwf
    exact decodeBldcol_s16Bytes k hr hg hb
  | cksum p => rfl
  | bldfrm d p => rfl
  | ckrst => rfl
  | ckacc b => rfl
  | ckfin => rfl

/-! From a request that decodes to its instruction: what each operand decoder accepts (30 R64, R68). -/

theorem decodeEnccol_ok_inv {x : List Byte} {i : Instr} (h : decodeEnccol x = .ok i) :
    encode i = 0x01 :: x ∧ i.wf = true := by
  unfold decodeEnccol at h
  split at h
  · cases h
    simp [encode, s16Bytes_sext16, wf_enccol_iff, isS16_sext16]
  · cases h

theorem decodeBldfrm_ok_inv {x : List Byte} {i : Instr} (h : decodeBldfrm x = .ok i) :
    encode i = 0x03 :: x ∧ i.wf = true := by
  cases x with
  | nil => cases h
  | cons d p => cases h; exact ⟨rfl, rfl⟩

theorem decodeBldcol_ok_inv {x : List Byte} {i : Instr} (h : decodeBldcol x = .ok i) :
    encode i = 0x04 :: x ∧ i.wf = true := by
  unfold decodeBldcol at h
  split at h
  · cases h
    simp [encode, s16Bytes_sext16, wf_bldcol_iff, isS16_sext16]
  · cases h

theorem decodeCkacc_ok_inv {x : List Byte} {i : Instr} (h : decodeCkacc x = .ok i) :
    encode i = 0x06 :: x ∧ i.wf = true := by
  unfold decodeCkacc at h
  split at h
  · cases h; exact ⟨rfl, rfl⟩
  · cases h

theorem decodeBare_ok_inv {i j : Instr} {x : List Byte} (h : decodeBare j x = .ok i) : x = [] ∧ i = j := by
  cases x with
  | nil => cases h; exact ⟨rfl, rfl⟩
  | cons b x => cases h

/-- The opcode byte that selected the operation is the one its encoding opens with. -/
theorem decodeOperands_ok_inv {op : Byte} {x : List Byte} {i : Instr} (h : decodeOperands op.toNat x = .ok i) :
    encode i = op :: x ∧ i.wf = true := by
  have hop : ∀ k : Byte, op.toNat = k.toNat → op = k := fun _ => BitVec.eq_of_toNat_eq
  unfold decodeOperands at h
  split at h
  case h_1 heq => rw [hop 0x01 heq]; exact decodeEnccol_ok_inv h
  case h_2 heq => rw [hop 0x02 heq]; cases h; exact ⟨rfl, rfl⟩
  case h_3 heq => rw [hop 0x03 heq]; exact decodeBldfrm_ok_inv h
  case h_4 heq => rw [hop 0x04 heq]; exact decodeBldcol_ok_inv h
  case h_5 heq => rw [hop 0x05 heq]; obtain ⟨rfl, rfl⟩ := decodeBare_ok_inv h; exact ⟨rfl, rfl⟩
  case h_6 heq => rw [hop 0x06 heq]; exact decodeCkacc_ok_inv h
  case h_7 heq => rw [hop 0x07 heq]; obtain ⟨rfl, rfl⟩ := decodeBare_ok_inv h; exact ⟨rfl, rfl⟩
  case h_8 => cases h

/-- Settles O6: every operand decoder keeps each byte it read in the instruction, and a byte pair is an S16 value. -/
theorem encodeOfDecode : Obligations.EncodeOfDecode := by
  intro q i h
  cases q with
  | nil => cases h
  | cons op x => exact decodeOperands_ok_inv h

/-! Which requests decode (30 R68, R69). -/

theorem decodeEnccol_of_length {x : List Byte} (h : x.length = 6) : ∃ i, decodeEnccol x = .ok i :=
  match x, h with
  | [_, _, _, _, _, _], _ => ⟨_, rfl⟩

theorem decodeBldcol_of_length {x : List Byte} (h : x.length = 7) : ∃ i, decodeBldcol x = .ok i :=
  match x, h with
  | [_, _, _, _, _, _, _], _ => ⟨_, rfl⟩

theorem decodeBldfrm_of_length {x : List Byte} (h : 1 ≤ x.length) : ∃ i, decodeBldfrm x = .ok i :=
  match x, h with
  | _ :: _, _ => ⟨_, rfl⟩

theorem decodeCkacc_of_length {x : List Byte} (h : x.length = 1) : ∃ i, decodeCkacc x = .ok i :=
  match x, h with
  | [_], _ => ⟨_, rfl⟩

theorem decodeBare_of_length (j : Instr) {x : List Byte} (h : x.length = 0) : ∃ i, decodeBare j x = .ok i :=
  match x, h with
  | [], _ => ⟨_, rfl⟩

/-- The decoder's first check, of the opcode byte (R68). -/
def FailsOpcodeCheck (q : Message) : Prop := q = [] ∨ (q.headD 0).toNat = 0 ∨ 8 ≤ (q.headD 0).toNat

/-- The decoder's second check, of the length its opcode's format allows (R64, R69). -/
def FailsLengthCheck (q : Message) : Prop :=
  ((q.headD 0).toNat = 1 ∧ q.length ≠ 7) ∨ ((q.headD 0).toNat = 3 ∧ q.length < 2) ∨
    ((q.headD 0).toNat = 4 ∧ q.length ≠ 8) ∨ ((q.headD 0).toNat = 5 ∧ q.length ≠ 1) ∨
    ((q.headD 0).toNat = 6 ∧ q.length ≠ 2) ∨ ((q.headD 0).toNat = 7 ∧ q.length ≠ 1)

/-- A request that passes both checks decodes. -/
theorem decode_ok_of_checks {q : Message} (hopc : ¬ FailsOpcodeCheck q) (hlen : ¬ FailsLengthCheck q) :
    ∃ i, decode q = .ok i := by
  cases q with
  | nil => exact absurd (.inl rfl) hopc
  | cons op x =>
    simp only [FailsOpcodeCheck, FailsLengthCheck, List.headD_cons, List.length_cons, reduceCtorEq, false_or]
      at hopc hlen
    rw [decode_cons]
    have hop : op.toNat = 1 ∨ op.toNat = 2 ∨ op.toNat = 3 ∨ op.toNat = 4 ∨ op.toNat = 5 ∨ op.toNat = 6 ∨
        op.toNat = 7 := by omega
    rcases hop with h | h | h | h | h | h | h <;> rw [h]
    · exact decodeEnccol_of_length (by omega)
    · exact ⟨_, rfl⟩
    · exact decodeBldfrm_of_length (by omega)
    · exact decodeBldcol_of_length (by omega)
    · exact decodeBare_of_length .ckrst (by omega)
    · exact decodeCkacc_of_length (by omega)
    · exact decodeBare_of_length .ckfin (by omega)

/-- The three outcomes of decoding, each with the check that decides it. -/
theorem decode_cases (q : Message) :
    (FailsOpcodeCheck q ∧ decode q = .error .eOpc) ∨ (FailsLengthCheck q ∧ decode q = .error .eFmt) ∨
      ∃ i, decode q = .ok i := by
  by_cases hopc : FailsOpcodeCheck q
  · exact .inl ⟨hopc, decode_eOpc hopc⟩
  · by_cases hlen : FailsLengthCheck q
    · exact .inr (.inl ⟨hlen, decode_eFmt hlen⟩)
    · exact .inr (.inr (decode_ok_of_checks hopc hlen))

/-- Settles O4: a failing check answers its own name, and only that outcome of decoding has it. -/
theorem decodeErrorsExactly : Obligations.DecodeErrorsExactly := by
  intro q
  refine ⟨⟨fun h => ?opcode, decode_eOpc⟩, ⟨fun h => ?length, decode_eFmt⟩, fun e h => ?noOther⟩ <;>
    obtain ⟨hfail, hq⟩ | ⟨hfail, hq⟩ | ⟨i, hq⟩ := decode_cases q <;> rw [hq] at h <;> cases h
  case opcode => exact hfail
  case length => exact hfail
  case noOther.inl => exact .inl rfl
  case noOther.inr.inl => exact .inr rfl

/-- Settles O1: the layouts at these bytes, the channels by their two's-complement values. -/
theorem writtenOutRequestsDecode : Obligations.WrittenOutRequestsDecode :=
  ⟨(decode_enccol_layout 0xFF 0xFB 0x01 0x2C 0x00 0x80).trans (by decide), rfl, rfl,
    (decode_bldcol_layout 0x01 0x80 0x00 0x7F 0xFF 0x00 0x07).trans (by decide), rfl, rfl, rfl⟩

end Sys2Proof.Machine
end

section
/-! SUPPORT. The values a colour byte can have, the code's bits, when two colours share a code, and the shape of a
colour payload: obligations of 40_color_codec.md and 43_color_payload.md. -/

namespace Sys2Proof.Machine

/-! The ranges of the five bytes (40 R101). -/

/-- The first byte's four values: blue's low two bits above the mark 0x04. -/
theorem blueLow_values (n : Nat) : (BitVec.ofNat 8 (n % 4 * 32 + 4)).toNat ∈ [0x04, 0x24, 0x44, 0x64] := by
  have hn : n % 4 < 4 := Nat.mod_lt n (by decide)
  interval_cases n % 4 <;> decide

/-- The last byte's two values: red's top bit below the mark 0x7E. -/
theorem redTop_values (r : Byte) : (BitVec.ofNat 8 (r.toNat / 128 + 0x7E)).toNat ∈ [0x7E, 0x7F] := by
  have hr : r.toNat / 128 < 2 := by omega
  interval_cases r.toNat / 128 <;> decide

theorem packColor_ranges (r g b : Byte) : ∃ c0 c1 c2 c3 c4 : Byte, packColor r g b = [c0, c1, c2, c3, c4] ∧
    c0.toNat ∈ [0x04, 0x24, 0x44, 0x64] ∧ c1.toNat ≤ 0x3F ∧ c2.toNat ≤ 0x7F ∧ c3.toNat ≤ 0x7F ∧
    c4.toNat ∈ [0x7E, 0x7F] := by
  have hc1 : (b.toNat / 4 ||| g.toNat % 2) < 2 ^ 6 := Nat.or_lt_two_pow (by omega) (by omega)
  refine ⟨_, _, _, _, _, packColor_eq r g b, blueLow_values _, ?_, ?_, ?_, redTop_values r⟩ <;>
    rw [BitVec.toNat_ofNat] <;> omega

/-- Settles O29: R101's ranges hold of any packed bytes, so of the clamped channels. -/
theorem colourByteRanges : Obligations.ColourByteRanges := fun r g b =>
  packColor_ranges (clamp255 r) (clamp255 g) (clamp255 b)

/-- Settles O30: each byte is a shift and a mask of its channel, read bit by bit. -/
theorem colourBitMap : Obligations.ColourBitMap := by
  intro R G B
  refine ⟨_, _, _, _, _, rfl, ?_, ?_, ?_, ?_, ?_⟩ <;> simp [Config.c1Mark, Config.c5Mark]

/-! When two colours have the same code (40 R104). -/

/-- What a colour code keeps of three channels is what the reference inverse recovers, and packing that again gives
the same code. -/
theorem packColor_recovered (r g b : Byte) :
    packColor r ((g &&& 0xFE) ||| sharedBit g b) ((b &&& 0xFB) ||| (sharedBit g b <<< 2)) = packColor r g b := by
  simp only [packColor, List.cons.injEq, and_true]
  refine ⟨?_, ?_, ?_⟩ <;> rw [byte_eq_iff] <;> simp [sharedBit, Config.c1Mark, Bool.or_comm]

theorem packColor_eq_iff_recovered (r g b r' g' b' : Byte) : packColor r g b = packColor r' g' b' ↔
    r = r' ∧ (g &&& 0xFE) ||| sharedBit g b = (g' &&& 0xFE) ||| sharedBit g' b' ∧
      (b &&& 0xFB) ||| (sharedBit g b <<< 2) = (b' &&& 0xFB) ||| (sharedBit g' b' <<< 2) := by
  constructor
  · intro h
    have hdec := congrArg decodeColor h
    rw [decodeColor_packColor, decodeColor_packColor] at hdec
    simpa using hdec
  · rintro ⟨rfl, hg, hb⟩
    rw [← packColor_recovered r g b, hg, hb, packColor_recovered]

/-- A byte without its bit 0 is its half. -/
theorem div_two_eq_iff (g g' : Byte) : g.toNat / 2 = g'.toNat / 2 ↔ g &&& 0xFE = g' &&& 0xFE := by
  have half (x : Byte) : (x &&& 0xFE) = BitVec.ofNat 8 (x.toNat / 2 * 2) := by
    have hshift : x &&& (0xFE : Byte) = (x >>> 1) <<< 1 := by rw [byte_eq_iff]; simp
    rw [hshift]
    apply BitVec.eq_of_toNat_eq
    simp [Nat.shiftLeft_eq, Nat.shiftRight_eq_div_pow]
  rw [half, half, ← BitVec.toNat_inj, BitVec.toNat_ofNat, BitVec.toNat_ofNat]
  omega

/-- Settles O31: both sides say what the reference inverse recovers, green and blue each a byte with the shared bit in
the place of the bit it lost. -/
theorem colourCodesCollideExactly : Obligations.ColourCodesCollideExactly := by
  intro R G B R' G' B'
  rw [packColor_eq_iff_recovered, div_two_eq_iff]
  simp only [byte_eq_iff]
  simp [sharedBit]
  tauto

/-! The colour payload (43 R170 to R173). -/

/-- A payload is built only for the selectors 0 and 1. -/
theorem buildColor_ok_inv {k : Byte} {r g b : Int} {p : List Byte} (h : buildColor k r g b = .ok p) :
    k.toNat ≤ 1 ∧ p = [0x10, if k.toNat = 0 then 0x20 else 0x30] ++ colorBytes r g b ++ [0x03] := by
  by_cases hk : k.toNat ≤ 1
  · rw [buildColor_ok r g b hk] at h
    exact ⟨hk, (Except.ok.inj h).symm⟩
  · rw [buildColor_eSel r g b (by omega)] at h
    cases h

theorem commandByte_values (n : Nat) :
    (if n = 0 then (0x20 : Byte) else 0x30) = 0x20 ∨ (if n = 0 then (0x20 : Byte) else 0x30) = 0x30 := by
  split
  · exact .inl rfl
  · exact .inr rfl

/-- Settles O47: a payload's fixed bytes around the five colour bytes; root key C's byte 2 is no first colour byte. -/
theorem colourPayloadShape : Obligations.ColourPayloadShape := by
  intro k r g b p h
  obtain ⟨-, rfl⟩ := buildColor_ok_inv h
  have hsel := commandByte_values k.toNat
  generalize (if k.toNat = 0 then (0x20 : Byte) else 0x30) = sel at hsel ⊢
  obtain ⟨c0, c1, c2, c3, c4, hC, h0, h1, h2, h3, h4⟩ := colourByteRanges r g b
  rw [hC]
  refine ⟨rfl, rfl, hsel, h0, h4, rfl, ?_, ?_⟩
  · simp only [List.mem_cons, List.not_mem_nil, or_false] at h0 h4
    simp only [AllSevenBit, List.cons_append, List.nil_append, List.forall_mem_cons]
    refine ⟨by decide, ?_, by omega, by omega, by omega, by omega, by omega, by decide, by simp⟩
    rcases hsel with rfl | rfl <;> decide
  · intro hp
    obtain rfl : c0 = 0x03 := by simpa using congrArg (·.getD 2 0) hp
    exact absurd h0 (by decide)

end Sys2Proof.Machine
end

section
/-! SUPPORT. The checksum's closed form and what it sees of each byte, the serial generator along a run with other
operations between, and what ACC bit 7 reaches: obligations of 41_checksum.md and 10_state.md. -/

namespace Sys2Proof.Machine

/-! The one-shot checksum (41 R122, R123). -/

theorem ck_toNat (p : List Byte) : (ck p).toNat = hashFrom 8 p % 128 := by
  rw [ck, low7_toNat, ckAcc_toNat]

/-- Settles O33: eight hash steps, the coefficient of each byte a power of 3 reduced modulo 256 or 128. -/
theorem checksumClosedForm : Obligations.ChecksumClosedForm := by
  intro b0 b1 b2 b3 b4 b5 b6 b7
  simp only [ckAcc_toNat, ck_toNat, hashFrom, List.foldl_cons, List.foldl_nil]
  constructor <;> omega

/-- The multiplier 3 is odd: over the same bytes the checksum tells the accumulators it started from apart. -/
theorem hashFrom_mod_inj {a a' : Nat} {p : List Byte} (h : hashFrom a p % 128 = hashFrom a' p % 128) :
    a % 128 = a' % 128 := by
  induction p generalizing a a' with
  | nil => exact h
  | cons b p ih =>
    have hstep : (a * 3 + b.toNat % 128) % 256 % 128 = (a' * 3 + b.toNat % 128) % 256 % 128 := ih h
    omega

theorem hashFrom_set_mod {p : List Byte} {i : Nat} {b : Byte} (a : Nat) (hi : i < p.length)
    (h : hashFrom a (p.set i b) % 128 = hashFrom a p % 128) : b.toNat % 128 = (p.getD i 0).toNat % 128 := by
  induction p generalizing a i with
  | nil => simp at hi
  | cons x p ih =>
    cases i with
    | zero =>
      have hstep : (a * 3 + b.toNat % 128) % 256 % 128 = (a * 3 + x.toNat % 128) % 256 % 128 := hashFrom_mod_inj h
      simp only [List.getD_cons_zero]
      omega
    | succ i => exact ih _ (Nat.lt_of_succ_lt_succ hi) h

/-- Settles O34: equal checksums would force the replaced byte's low seven bits. -/
theorem checksumSeesEverySingleByte : Obligations.ChecksumSeesEverySingleByte := by
  intro p i b hlen hi hne heq
  refine hne (hashFrom_set_mod 8 (by omega) ?_)
  rw [← ck_toNat, ← ck_toNat, heq]

/-- Settles O35: the checksum is the masked hash, and the hash masks every byte. -/
theorem checksumIsSevenBitOfSevenBits : Obligations.ChecksumIsSevenBitOfSevenBits := by
  intro p p' _ h
  refine ⟨low7_le (ckAcc p), ?_⟩
  rw [ck_eq, ck_eq, hashFrom_congr 8 h]

/-! The serial generator (41 R125, R130). -/

/-- The serial registers after one CKRST and then CKACCs, whatever operations that do not write them come between. -/
theorem serialAfter_of_filter_ckrst {is : List Instr} {bs : List Byte}
    (h : is.filter writesHash = .ckrst :: bs.map Instr.ckacc) (a : BitVec 8) (c : BitVec 4) :
    serialAfter (is.map encode) a c = (ckAcc bs, BitVec.ofNat 4 (min bs.length 15)) := by
  rw [serialAfter_encode, h, List.foldl_cons]
  have hrun := foldl_serialOf_ckacc bs Config.ckSeed 0
  rwa [show (0 : BitVec 4).toNat = 0 from rfl, Nat.zero_add] at hrun

/-- Settles O36: the run's registers in plain arithmetic. -/
theorem serialRegistersAfterBytes : Obligations.SerialRegistersAfterBytes := by
  intro is bs a c h
  rw [serialAfter_of_filter_ckrst h]
  refine ⟨ckAcc_toNat bs, ?_⟩
  rw [BitVec.toNat_ofNat]
  omega

theorem serve_cksum {bs : List Byte} (h : bs.length = 8) (a : BitVec 8) (c : BitVec 4) :
    (serve (encode (.cksum bs)) a c).1 = [0x00, ck bs] := by
  rw [serve_of_decode_ok (i := .cksum bs) rfl, answer_cksum_ok h, ck_eq]

/-- CKFIN after a run that leaves the registers of eight bytes: its response is the checksum, the registers stay. -/
theorem ckfin_after_eight {qs : List Message} {bs : List Byte} {a : BitVec 8} {c : BitVec 4}
    (h : serialAfter qs a c = (ckAcc bs, 8)) :
    (serveAll (qs ++ [encode .ckfin]) a c).getLast? = some [0x00, ck bs] ∧
      serialAfter (qs ++ [encode .ckfin]) a c = (ckAcc bs, 8) := by
  have hcnt : (8 : BitVec 4).toNat = 8 := rfl
  constructor
  · rw [serveAll_concat_getLast?, h, serve_ckfin, answer_ckfin_ok _ hcnt, ckAcc_toNat, ck_eq]
  · rw [serialAfter_append, h, serialAfter, serve_ckfin]
    rfl

/-- Settles O37: after eight bytes the registers are the one-shot accumulator and 8, and CKFIN answers its low seven
bits. -/
theorem serialChecksumEqualsOneShot : Obligations.SerialChecksumEqualsOneShot := by
  intro is bs a a' c c' hlen h
  have hregs : serialAfter (is.map encode) a c = (ckAcc bs, 8) := by
    rw [serialAfter_of_filter_ckrst h, hlen]; rfl
  obtain ⟨hlast, hafter⟩ := ckfin_after_eight hregs
  rw [serve_cksum hlen, List.map_append, List.map_singleton]
  exact ⟨hlast, rfl, hafter⟩

/-! What ACC bit 7 reaches (10 R22, log 18). -/

/-- Equal low seven bits of ACC give the same response. -/
theorem answer_of_low7_eq (i : Instr) {a a' : BitVec 8} (c : BitVec 4) (h : low7 a = low7 a') :
    answer i a c = answer i a' c := by
  cases i with
  | ckfin => rw [answer, answer, h]
  | enccol r g b => rfl
  | cksum p => rfl
  | bldfrm d p => rfl
  | bldcol k r g b => rfl
  | ckrst => rfl
  | ckacc b => rfl

/-- Equal low seven bits of ACC stay equal, and the counter never sees ACC. -/
theorem serialOf_of_low7_eq (i : Instr) {a a' : BitVec 8} (c : BitVec 4) (h : low7 a = low7 a') :
    low7 (serialOf i a c).1 = low7 (serialOf i a' c).1 ∧ (serialOf i a c).2 = (serialOf i a' c).2 := by
  cases i with
  | ckacc b => exact ⟨by rw [serialOf, serialOf, low7_ckStep, h, ← low7_ckStep], rfl⟩
  | ckrst => exact ⟨rfl, rfl⟩
  | enccol r g b => exact ⟨h, rfl⟩
  | cksum p => exact ⟨h, rfl⟩
  | bldfrm d p => exact ⟨h, rfl⟩
  | bldcol k r g b => exact ⟨h, rfl⟩
  | ckfin => exact ⟨h, rfl⟩

theorem serve_of_low7_eq (q : Message) {a a' : BitVec 8} (c : BitVec 4) (h : low7 a = low7 a') :
    (serve q a c).1 = (serve q a' c).1 ∧ low7 (serve q a c).2.1 = low7 (serve q a' c).2.1 ∧
      (serve q a c).2.2 = (serve q a' c).2.2 := by
  simp only [serve_eq, answerTo, serialTo]
  cases decode q with
  | ok i => exact ⟨answer_of_low7_eq i c h, serialOf_of_low7_eq i c h⟩
  | error e => exact ⟨rfl, h, rfl⟩

theorem serveAll_of_low7_eq (qs : List Message) {a a' : BitVec 8} (c : BitVec 4) (h : low7 a = low7 a') :
    serveAll qs a c = serveAll qs a' c := by
  induction qs generalizing a a' c with
  | nil => rfl
  | cons q qs ih =>
    obtain ⟨hresp, hacc, hcnt⟩ := serve_of_low7_eq q c h
    rw [serveAll, serveAll, hresp, hcnt, ih _ hacc]

/-- Flipping bit 7 adds 128. -/
theorem xor_bitSeven_toNat (a : BitVec 8) : (a ^^^ 0x80).toNat = (a.toNat + 128) % 256 := by
  have hlow : (a.toNat ^^^ 128) % 128 = a.toNat % 128 := by
    simpa using Nat.xor_mod_two_pow (a := a.toNat) (b := 128) (n := 7)
  have htop : (a.toNat ^^^ 128) / 128 = a.toNat / 128 ^^^ 1 := Nat.xor_div_two_pow (n := 7)
  have hbit : a.toNat / 128 = 0 ∨ a.toNat / 128 = 1 := by omega
  rw [BitVec.toNat_xor, show (0x80 : BitVec 8).toNat = 128 from rfl]
  rcases hbit with h | h <;> rw [h] at htop <;> simp only [Nat.zero_xor, Nat.xor_self] at htop <;> omega

/-- 3 * 128 is 128 modulo 256: a flipped bit 7 is bit 7 flipped after the step. -/
theorem ckStep_xor_bitSeven (a b : BitVec 8) : ckStep (a ^^^ 0x80) b = ckStep a b ^^^ 0x80 := by
  apply BitVec.eq_of_toNat_eq
  rw [ckStep_toNat, xor_bitSeven_toNat, xor_bitSeven_toNat, ckStep_toNat]
  omega

theorem serialAfter_ckaccs_acc (bs : List Byte) (a : BitVec 8) (c : BitVec 4) :
    (serialAfter (bs.map fun b => encode (.ckacc b)) a c).1 = bs.foldl ckStep a := by
  induction bs generalizing a c with
  | nil => rfl
  | cons b bs ih => rw [List.map_cons, serialAfter, serve_ckacc, ih, List.foldl_cons]

/-- Settles O40: only CKFIN's answer reads ACC, its low seven bits alone, and CKACC carries a flipped bit 7 on. -/
theorem accBitSevenReachesNoResponse : Obligations.AccBitSevenReachesNoResponse := by
  refine ⟨fun qs a a' c h => serveAll_of_low7_eq qs c ?_, fun bs a c => ?_⟩
  · rw [low7_eq, low7_eq, h]
  · rw [serialAfter_ckaccs_acc, serialAfter_ckaccs_acc]
    exact List.foldl_hom (· ^^^ 0x80) ckStep_xor_bitSeven

end Sys2Proof.Machine
end

section
/-! SUPPORT. The frames BLDFRM builds are the byte strings isFrame accepts, and what any frame holds under every
policy: obligations of 42_frame_encoder.md. -/

namespace Sys2Proof.Machine

/-! A frame's bytes by place (42 R150). -/

theorem frameBytes_prefix (d : Byte) (p : List Byte) : (frameBytes d p).take 4 = [0xF0, 0x00, 0x21, 0x10] := rfl

theorem frameBytes_msgType (d : Byte) (p : List Byte) : (frameBytes d p).getD 4 0 = 0x77 := rfl

theorem frameBytes_term (d : Byte) {p : List Byte} (h : p.length = 8) : (frameBytes d p).getD 15 0 = 0xF7 := by
  simp [frameBytes, h]

theorem eq_append_fields_of_length {f : List Byte} (h : f.length = 16) :
    f = f.take 4 ++ [f.getD 4 0, f.getD 5 0] ++ (f.drop 6).take 8 ++ [f.getD 14 0, f.getD 15 0] :=
  match f, h with
  | [_, _, _, _, _, _, _, _, _, _, _, _, _, _, _, _], _ => rfl

/-- R158's conditions, one by one. -/
theorem isFrame_iff (f : List Byte) : isFrame f = true ↔
    f.length = 16 ∧ f.take 4 = [0xF0, 0x00, 0x21, 0x10] ∧ f.getD 4 0 = 0x77 ∧ (f.getD 5 0).toNat ≤ 0x7F ∧
      AllSevenBit ((f.drop 6).take 8) ∧ f.getD 14 0 = ck ((f.drop 6).take 8) ∧ f.getD 15 0 = 0xF7 := by
  simp only [isFrame, AllSevenBit, Bool.and_eq_true, decide_eq_true_eq, List.all_eq_true, and_assoc]

theorem frameBytes_isFrame {d : Byte} {p : List Byte} (h : p.length = 8) (hd : d.toNat ≤ 0x7F) (hp : AllSevenBit p) :
    isFrame (frameBytes d p) = true := by
  rw [isFrame_iff, frameBytes_payload d h, frameBytes_devid, low7_of_le hd]
  exact ⟨frameBytes_length d h, frameBytes_prefix d p, frameBytes_msgType d p, hd, hp, frameBytes_checksum d h,
    frameBytes_term d h⟩

/-- Settles O45: a built frame is `frameBytes` of operands in range, and R158's conditions fix every byte but the
device id and the payload. -/
theorem framesAreExactlyIsFrame : Obligations.FramesAreExactlyIsFrame := by
  refine ⟨fun d p f h => ?built, fun f h => ?accepted⟩
  case built =>
    obtain ⟨hlen, hd, hp, rfl⟩ := buildFrame_ok_inv h
    exact frameBytes_isFrame hlen hd hp
  case accepted =>
    obtain ⟨hlen, hprefix, hmsg, hd, hp, hck, hterm⟩ := (isFrame_iff f).1 h
    have hpay : ((f.drop 6).take 8).length = 8 := by rw [List.length_take, List.length_drop, hlen]; rfl
    have hf : frameBytes (f.getD 5 0) ((f.drop 6).take 8) = f := by
      conv_rhs => rw [eq_append_fields_of_length hlen, hprefix, hmsg, hck, hterm]
      rw [frameBytes, low7_of_le hd]
    exact (buildFrame_ok hpay hd hp).trans (congrArg _ hf)

/-- Settles O44: whatever the policies, a frame is `frameBytes` of a payload with the given one's low seven bits, all
that the hash sees. -/
theorem frameInvariantsUnderEveryPolicy : Obligations.FrameInvariantsUnderEveryPolicy := by
  intro dp pp d p f h
  obtain ⟨-, d', p', rfl, hlen, hlow, -⟩ := buildFrame_shape h
  have hmod := congrArg (List.map BitVec.toNat) hlow
  simp only [List.map_map, Function.comp_def, low7_toNat] at hmod
  rw [frameBytes_checksum d' hlen, frameBytes_payload d' hlen, ck_toNat, hashFrom_congr 8 hmod]
  exact ⟨frameBytes_length d' hlen, frameBytes_prefix d' p', frameBytes_msgType d' p', frameBytes_term d' hlen, rfl,
    rfl⟩

end Sys2Proof.Machine
end

section
/-! SUPPORT. What every operation answers and leaves unchanged: the obligations of 10_state.md, 20_memory.md and
43_color_payload.md about the frame of the operations. -/

namespace Sys2Proof.Machine

/-! BLDCOL (43 R170, R171). -/

theorem exec_bldcol (k : Byte) (r g b : Int) (s : State) :
    exec (.bldcol k r g b) s = .next { s with rspq := s.rspq ++ [resultResponse (buildColor k r g b)] } :=
  exec_eq (.bldcol k r g b) s

/-- Settles O22: the payload wraps the very bytes that ENCCOL answers. -/
theorem bldcolResponds : Obligations.BldcolResponds := by
  intro k r g b s _ hk _
  refine ⟨colorBytes r g b, colorBytes_length r g b, exec_enccol r g b s, ?_⟩
  rw [exec_bldcol, buildColor_ok r g b hk]
  rfl

/-- Settles O23: no selector of 2 or more has a command byte. -/
theorem bldcolRefusesOtherSelectors : Obligations.BldcolRefusesOtherSelectors := by
  intro k r g b s _ hk _
  rw [exec_bldcol, buildColor_eSel r g b hk]
  rfl

/-! The registers (10 R24, R33). -/

theorem serialOf_of_not_writesHash {i : Instr} (h : writesHash i = false) (a : BitVec 8) (c : BitVec 4) :
    serialOf i a c = (a, c) := by
  cases i with
  | ckrst => cases h
  | ckacc b => cases h
  | enccol r g b => rfl
  | cksum p => rfl
  | bldfrm d p => rfl
  | bldcol k r g b => rfl
  | ckfin => rfl

/-- The stateless operations write no register and answer from their operands alone. -/
theorem answer_of_isStateless {i : Instr} (h : isStateless i = true) (a a' : BitVec 8) (c c' : BitVec 4) :
    writesHash i = false ∧ answer i a c = answer i a' c' := by
  cases i with
  | ckrst => cases h
  | ckacc b => cases h
  | ckfin => cases h
  | enccol r g b => exact ⟨rfl, rfl⟩
  | cksum p => exact ⟨rfl, rfl⟩
  | bldfrm d p => exact ⟨rfl, rfl⟩
  | bldcol k r g b => exact ⟨rfl, rfl⟩

/-- An operation that writes no register appends its response and does nothing else. -/
theorem exec_of_not_writesHash {i : Instr} (h : writesHash i = false) (s : State) :
    exec i s = .next { s with rspq := s.rspq ++ [answer i s.acc s.cnt] } := by
  rw [exec_eq, serialOf_of_not_writesHash h]

theorem eq_ckrst_or_ckacc_of_writesHash {i : Instr} (h : writesHash i = true) : i = .ckrst ∨ ∃ b, i = .ckacc b := by
  cases i with
  | ckrst => exact .inl rfl
  | ckacc b => exact .inr ⟨b, rfl⟩
  | enccol r g b => cases h
  | cksum p => cases h
  | bldfrm d p => cases h
  | bldcol k r g b => cases h
  | ckfin => cases h

/-- Settles O24: a stateless operation's answer at any registers is its answer at all, and an operation that writes no
register leaves both. -/
theorem statelessOperationsArePure : Obligations.StatelessOperationsArePure := by
  refine fun i => ⟨fun h => ⟨answer i 0 0, fun s => ?pure⟩, fun s t h hne => ?writer⟩
  case pure =>
    obtain ⟨hw, hanswer⟩ := answer_of_isStateless h s.acc 0 s.cnt 0
    rw [exec_of_not_writesHash hw, hanswer]
  case writer =>
    cases hw : writesHash i with
    | true => exact eq_ckrst_or_ckacc_of_writesHash hw
    | false =>
      rw [exec_of_not_writesHash hw] at h
      cases h
      simp at hne

/-! The responses (20 R47, 30 R66, R67). -/

/-- The number of data bytes of each operation's OK response. -/
def okDataLength : Instr → Nat
  | .enccol _ _ _ => 5
  | .cksum _ => 1
  | .bldfrm _ _ => 16
  | .bldcol _ _ _ _ => 8
  | .ckrst => 0
  | .ckacc _ => 0
  | .ckfin => 1

/-- What the data of an OK response can be: a frame, or one of the other operations' seven-bit bytes (R67). -/
def LegalData (data : List Byte) : Prop :=
  isFrame data = true ∨ (data.length ∈ [0, 1, 5, 8] ∧ AllSevenBit data)

/-- The two forms of an operation's response (R66): OK with the operation's own number of legal data bytes, or an
error's code alone. -/
def IsAnswerOf (i : Instr) (m : Message) : Prop :=
  (∃ data, m = okResponse data ∧ data.length = okDataLength i ∧ LegalData data) ∨ ∃ e, m = errResponse e

theorem legalData_low7 (b : Byte) : LegalData [low7 b] :=
  .inr ⟨by simp, by simpa [AllSevenBit] using low7_le b⟩

theorem legalData_nil : LegalData [] := .inr ⟨by simp, by simp [AllSevenBit]⟩

theorem answer_form (i : Instr) (a : BitVec 8) (c : BitVec 4) : IsAnswerOf i (answer i a c) := by
  cases i with
  | enccol r g b =>
    exact .inl ⟨_, rfl, colorBytes_length r g b, .inr ⟨by simp [colorBytes_length], packColor_sevenBit _ _ _⟩⟩
  | cksum p =>
    by_cases h : p.length = 8
    · exact .inl ⟨[ck p], if_pos h, rfl, legalData_low7 _⟩
    · exact .inr ⟨.eLen, if_neg h⟩
  | bldfrm d p =>
    cases h : buildFrame .reject .reject d p with
    | ok f =>
      obtain ⟨hlen, hd, hp, rfl⟩ := buildFrame_ok_inv h
      exact .inl ⟨_, congrArg resultResponse h, frameBytes_length d hlen, .inl (frameBytes_isFrame hlen hd hp)⟩
    | error e => exact .inr ⟨e, congrArg resultResponse h⟩
  | bldcol k r g b =>
    cases h : buildColor k r g b with
    | ok p =>
      obtain ⟨hlen, -, -, -, -, -, hp, -⟩ := colourPayloadShape k r g b p h
      exact .inl ⟨p, congrArg resultResponse h, hlen, .inr ⟨by simp [hlen], hp⟩⟩
    | error e => exact .inr ⟨e, congrArg resultResponse h⟩
  | ckrst => exact .inl ⟨[], rfl, rfl, legalData_nil⟩
  | ckacc b => exact .inl ⟨[], rfl, rfl, legalData_nil⟩
  | ckfin =>
    by_cases h : c.toNat = 8
    · exact .inl ⟨[low7 a], if_pos h, rfl, legalData_low7 a⟩
    · exact .inr ⟨.eLen, if_neg h⟩

theorem answer_ne_nil (i : Instr) (a : BitVec 8) (c : BitVec 4) : answer i a c ≠ [] := by
  obtain ⟨data, h, -⟩ | ⟨e, h⟩ := answer_form i a c <;> rw [h] <;> exact List.cons_ne_nil _ _

/-- Settles O25: the execution law says all that changes, and the response has a status byte. -/
theorem operationFrame : Obligations.OperationFrame := by
  intro i s _
  refine ⟨_, answer i s.acc s.cnt, exec_eq i s, answer_ne_nil i _ _, rfl, rfl, rfl, rfl, fun h => ?_⟩
  rw [serialOf_of_not_writesHash h]
  exact ⟨rfl, rfl⟩

/-- Every error's code is 1 to 6 (60 R200). -/
theorem errByte_range (e : ErrCode) : 1 ≤ (errByte e).toNat ∧ (errByte e).toNat ≤ 6 := by
  cases e <;> decide

/-- Settles O26: the two forms of a response, an error's code being no OK status. -/
theorem responseLengths : Obligations.ResponseLengths := by
  intro i s t h
  rw [exec_eq] at h
  cases h
  obtain ⟨data, hok, hlen, -⟩ | ⟨e, herr⟩ := answer_form i s.acc s.cnt
  · refine ⟨okStatus, data, by rw [hok]; rfl, fun h => absurd rfl h, fun _ => hlen.trans ?_⟩
    cases i <;> rfl
  · have hcode := errByte_range e
    exact ⟨errByte e, [], by rw [herr]; rfl, fun _ => rfl, fun h => by omega⟩

end Sys2Proof.Machine
end

section
/-! SUPPORT. The step move by move, the invariant every step keeps, and the moves that stop: obligations of
10_state.md, 60_exceptions.md and 70_reset_and_hazards.md about the step, the queues and reset. -/

namespace Sys2Proof.Machine

/-! One lemma per move (60 R214, 70 R240, R244). -/

/-- Settles O9: on both sides the FEU's turn keeps the state it is given, the schedule's move already spent. -/
theorem idleOrHeldTurnChangesNothing : Obligations.IdleOrHeldTurnChangesNothing := by
  intro s hm h
  rw [step_eq, hm, runMove_feu]
  rcases h with hidle | hfull
  · exact feuTurn_idle hidle
  · exact feuTurn_hold (decide_eq_false (by simpa using hfull))

theorem step_feu_oversized {s : State} {q : Message} {rest : List Message} (hm : nextMove s = .feu)
    (hq : s.reqq = q :: rest) (hroom : s.rspq.length < Config.rspqDepth) (hlong : Config.reqMax < q.length) :
    step s = .refused .requestTooLong := by
  rw [step_eq, hm, runMove_feu]
  exact feuTurn_oversized hq (decide_eq_true hroom) (decide_eq_false (by omega))

theorem step_enqueue {s : State} {q : Message} (hm : nextMove s = .enqueue q) (hfit : q.length ≤ Config.reqMax)
    (hroom : s.reqq.length < Config.reqqDepth) :
    step s = .next { s with reqq := s.reqq ++ [q], schedule := s.schedule.tail } := by
  have hroom' : reqqHasRoom { s with schedule := s.schedule.tail } = true := (reqqHasRoom_iff _).2 hroom
  rw [step_eq, hm, runMove_enqueue, hostEnqueue, if_pos ((requestFits_iff q).2 hfit), if_pos hroom']

theorem step_enqueue_full {s : State} {q : Message} (hm : nextMove s = .enqueue q) (hfit : q.length ≤ Config.reqMax)
    (hfull : Config.reqqDepth ≤ s.reqq.length) : step s = .fault .reqqFull := by
  have hroom : ¬ reqqHasRoom { s with schedule := s.schedule.tail } = true :=
    fun h => Nat.not_lt.2 hfull ((reqqHasRoom_iff _).1 h)
  rw [step_eq, hm, runMove_enqueue, hostEnqueue, if_pos ((requestFits_iff q).2 hfit), if_neg hroom]

theorem step_enqueue_oversized {s : State} {q : Message} (hm : nextMove s = .enqueue q)
    (hlong : Config.reqMax < q.length) : step s = .refused .requestTooLong := by
  have hfit : ¬ requestFits q = true := by rw [requestFits_iff]; omega
  rw [step_eq, hm, runMove_enqueue, hostEnqueue, if_neg hfit]

theorem step_take {s : State} {a : Message} {rest : List Message} (hm : nextMove s = .take) (hr : s.rspq = a :: rest) :
    step s = .next { s with rspq := rest, taken := s.taken ++ [a], schedule := s.schedule.tail } := by
  simp only [step_eq, hm, runMove_take, hostTake, hr]

theorem step_take_empty {s : State} (hm : nextMove s = .take) (hr : s.rspq = []) : step s = .fault .rspqEmpty := by
  simp only [step_eq, hm, runMove_take, hostTake, hr]

/-- Settles O13: a reset move is `assertReset`, whose registers are the reset state's. -/
theorem resetIsOneAction : Obligations.ResetIsOneAction := by
  intro s hm
  rw [step_eq, hm, runMove_reset]
  rfl

/-- Everything a step can do when it answers a next state. -/
theorem step_cases {s t : State} (h : step s = .next t) :
    (nextMove s = .feu ∧ (s.reqq = [] ∨ Config.rspqDepth ≤ s.rspq.length) ∧
      t = { s with schedule := s.schedule.tail }) ∨
    (∃ q rest, FeuReady s q rest ∧ t = { s with
      acc := (serialTo q s.acc s.cnt).1, cnt := (serialTo q s.acc s.cnt).2, reqq := rest,
      rspq := s.rspq ++ [answerTo q s.acc s.cnt], schedule := s.schedule.tail }) ∨
    (∃ q, nextMove s = .enqueue q ∧ q.length ≤ Config.reqMax ∧ s.reqq.length < Config.reqqDepth ∧
      t = { s with reqq := s.reqq ++ [q], schedule := s.schedule.tail }) ∨
    (∃ a rest, nextMove s = .take ∧ s.rspq = a :: rest ∧
      t = { s with rspq := rest, taken := s.taken ++ [a], schedule := s.schedule.tail }) ∨
    (nextMove s = .reset ∧
      t = { s with acc := 0x08, cnt := 0, reqq := [], rspq := [], schedule := s.schedule.tail }) := by
  cases hm : nextMove s with
  | feu =>
    rw [step_eq, hm, runMove_feu] at h
    obtain ⟨rfl, hkept⟩ | ⟨q, rest, hq, hroom, hfit, rfl⟩ := feuTurn_cases h
    · refine .inl ⟨rfl, hkept.imp id fun hfull => ?_, rfl⟩
      simpa [rspqHasRoom] using hfull
    · exact .inr (.inl ⟨q, rest, ⟨hq, hm, of_decide_eq_true hroom, of_decide_eq_true hfit⟩, rfl⟩)
  | enqueue q =>
    rw [step_eq, hm, runMove_enqueue] at h
    obtain ⟨hfit, hroom, rfl⟩ := hostEnqueue_cases h
    exact .inr (.inr (.inl ⟨q, rfl, of_decide_eq_true hfit, of_decide_eq_true hroom, rfl⟩))
  | take =>
    rw [step_eq, hm, runMove_take] at h
    obtain ⟨a, rest, hr, rfl⟩ := hostTake_cases h
    exact .inr (.inr (.inr (.inl ⟨a, rest, rfl, hr, rfl⟩)))
  | reset =>
    rw [resetIsOneAction s hm] at h
    cases h
    exact .inr (.inr (.inr (.inr ⟨rfl, rfl⟩)))

/-! The FEU's step (70 R244). -/

/-- Settles O7: a request that decodes is run by exec on the state it has left. -/
theorem stepRunsTheDecodedRequest : Obligations.StepRunsTheDecodedRequest := by
  intro s q rest i h hdec
  rw [step_of_ready h, exec_eq]
  simp only [answerTo, serialTo, hdec]

theorem serve_fst (q : Message) (a : BitVec 8) (c : BitVec 4) : (serve q a c).1 = answerTo q a c := by
  rw [serve_eq]

/-- The step of a ready FEU, by what serving the request alone answers. -/
theorem step_of_ready_serve {s : State} {q : Message} {rest : List Message} (h : FeuReady s q rest) :
    step s = .next { s with
      acc := (serve q s.acc s.cnt).2.1, cnt := (serve q s.acc s.cnt).2.2, reqq := rest,
      rspq := s.rspq ++ [(serve q s.acc s.cnt).1], schedule := s.schedule.tail } := by
  rw [step_of_ready h, serve_eq]

/-- An idle or held turn leaves the FEU's own four items. -/
theorem sameFeu_of_idle_or_held {s t : State} (hm : nextMove s = .feu)
    (hkept : s.reqq = [] ∨ Config.rspqDepth ≤ s.rspq.length) (h : step s = .next t) : SameFeu s t := by
  rw [idleOrHeldTurnChangesNothing s hm hkept] at h
  cases h
  exact ⟨rfl, rfl, rfl, rfl⟩

/-- Settles O8: the three kinds of turn, each by its own lemma of the step. -/
theorem feuStepIsAFunctionOfRequestAndRegisters : Obligations.FeuStepIsAFunctionOfRequestAndRegisters := by
  refine fun s => ⟨fun q rest h => step_of_ready_serve h, fun t hm hkept h => sameFeu_of_idle_or_held hm hkept h,
    fun t hm h => ?_⟩
  rw [resetIsOneAction s hm] at h
  cases h
  rfl

/-- Settles O10: both moves that meet such a request refuse it. -/
theorem oversizedRequestHasNoStep : Obligations.OversizedRequestHasNoStep := fun _ _ hlong =>
  ⟨fun hm => step_enqueue_oversized hm hlong, fun _ hq hm hroom => step_feu_oversized hm hq hroom hlong⟩

theorem not_stepsSafely_of_fault {s : State} {r : Fault} (h : step s = .fault r) : ¬ StepsSafely s := by
  rintro ⟨t, ht⟩
  rw [h] at ht
  cases ht

theorem not_stepsSafely_of_refused {s : State} {r : Refusal} (h : step s = .refused r) : ¬ StepsSafely s := by
  rintro ⟨t, ht⟩
  rw [h] at ht
  cases ht

/-- Settles O11: each queue's moves at their own ends, and a move that is not enabled is a fault. -/
theorem queueDisciplines : Obligations.QueueDisciplines := by
  intro s
  refine ⟨fun q hm hfit => ⟨fun hroom => step_enqueue hm hfit hroom, fun hfull => ?full⟩,
    fun hm => ⟨fun a rest hr => step_take hm hr, fun hr => not_stepsSafely_of_fault (step_take_empty hm hr)⟩,
    fun q rest h => ⟨_, _, step_of_ready h, rfl, rfl⟩,
    fun t hm hfull h => sameFeu_of_idle_or_held hm (.inr hfull) h⟩
  case full => exact not_stepsSafely_of_fault (step_enqueue_full hm hfit hfull)

/-! Reset (10 R32, 70 R240, R253). -/

/-- Settles O12: the reset state, a reset move and CKRST write the same constants. -/
theorem resetValues : Obligations.ResetValues := by
  refine ⟨rfl, rfl, rfl, rfl, fun s t hm h => ?_, fun s t h => ?_⟩
  · rw [resetIsOneAction s hm] at h
    cases h
    exact ⟨rfl, rfl, rfl, rfl⟩
  · rw [exec_eq] at h
    cases h
    exact ⟨rfl, rfl⟩

/-- Settles O14: with both queues empty the history is what the host has taken. -/
theorem resetOwesNoResponse : Obligations.ResetOwesNoResponse := by
  intro s t hm h
  rw [resetIsOneAction s hm] at h
  cases h
  simp [State.history, serveAll]

/-! The invariant (10 R28, R29; 30 R65 to R67). -/

theorem isResponse_okResponse {data : List Byte} (h : LegalData data) : isResponse (okResponse data) = true := by
  rcases h with hframe | ⟨hlen, hseven⟩
  · simp [isResponse, okResponse, hframe]
  · have hall : (data.all fun b => decide (b.toNat ≤ 0x7F)) = true := by simpa [AllSevenBit] using hseven
    simp [isResponse, okResponse, hlen, hall]

theorem isResponse_errResponse (e : ErrCode) : isResponse (errResponse e) = true := by
  cases e <;> decide

/-- Every request is answered by a legal response. -/
theorem isResponse_answerTo (q : Message) (a : BitVec 8) (c : BitVec 4) : isResponse (answerTo q a c) = true := by
  unfold answerTo
  cases decode q with
  | error e => exact isResponse_errResponse e
  | ok i =>
    obtain ⟨data, h, -, hlegal⟩ | ⟨e, h⟩ := answer_form i a c <;> simp only [h]
    · exact isResponse_okResponse hlegal
    · exact isResponse_errResponse e

/-- Settles O49: after reset the queues and the host's list are empty. -/
theorem resetMeetsInvariant : Obligations.ResetMeetsInvariant := by
  constructor <;> simp

/-- Settles O50, by the cases of a step: only the FEU's step makes a response, a legal one, and only where there is
room; the host's enqueue is bounded in both ways; a take moves a response that was legal already. -/
theorem everyStepKeepsInvariant : Obligations.EveryStepKeepsInvariant := by
  intro s t hinv h
  obtain ⟨hreqq, hrspq, hfits, hwaiting, htaken⟩ := hinv
  obtain ⟨-, -, rfl⟩ | ⟨q, rest, ⟨hq, -, hroom, -⟩, rfl⟩ | ⟨q, -, hfit, hroom, rfl⟩ | ⟨a, rest, -, hr, rfl⟩ |
    ⟨-, rfl⟩ := step_cases h
  case inl => exact ⟨hreqq, hrspq, hfits, hwaiting, htaken⟩
  case inr.inl =>
    rw [hq] at hreqq hfits
    refine ⟨Nat.le_of_succ_le hreqq, ?_, (List.forall_mem_cons.1 hfits).2, ?_, htaken⟩
    · rw [List.length_append]
      exact hroom
    · exact List.forall_mem_append.2 ⟨hwaiting, List.forall_mem_singleton.2 (isResponse_answerTo q s.acc s.cnt)⟩
  case inr.inr.inl =>
    refine ⟨?_, hrspq, ?_, hwaiting, htaken⟩
    · rw [List.length_append]
      exact hroom
    · exact List.forall_mem_append.2 ⟨hfits, List.forall_mem_singleton.2 ((requestFits_iff q).2 hfit)⟩
  case inr.inr.inr.inl =>
    rw [hr] at hrspq hwaiting
    obtain ⟨hhead, hrest⟩ := List.forall_mem_cons.1 hwaiting
    exact ⟨hreqq, Nat.le_of_succ_le hrspq, hfits, hrest,
      List.forall_mem_append.2 ⟨htaken, List.forall_mem_singleton.2 hhead⟩⟩
  case inr.inr.inr.inr => exact ⟨by simp, by simp, by simp, by simp, htaken⟩

/-- From a state within the invariant the FEU's turn answers a next state: its queued requests are within REQ_MAX. -/
theorem stepsSafely_of_feu {s : State} (hinv : s.Inv) (hm : nextMove s = .feu) : StepsSafely s := by
  cases hq : s.reqq with
  | nil => exact ⟨_, idleOrHeldTurnChangesNothing s hm (.inl hq)⟩
  | cons q rest =>
    by_cases hroom : s.rspq.length < Config.rspqDepth
    · have hfit : q.length ≤ Config.reqMax := (requestFits_iff q).1 (hinv.requestsFit q (by simp [hq]))
      exact ⟨_, step_of_ready ⟨hq, hm, hroom, hfit⟩⟩
    · exact ⟨_, idleOrHeldTurnChangesNothing s hm (.inr (Nat.le_of_not_lt hroom))⟩

theorem stepsSafely_of_reset {s : State} (hm : nextMove s = .reset) : StepsSafely s := ⟨_, resetIsOneAction s hm⟩

theorem stepsSafely_take_iff {s : State} (hm : nextMove s = .take) : StepsSafely s ↔ s.rspq ≠ [] := by
  cases hr : s.rspq with
  | nil => exact iff_of_false (not_stepsSafely_of_fault (step_take_empty hm hr)) (fun h => h rfl)
  | cons a rest => exact iff_of_true ⟨_, step_take hm hr⟩ (List.cons_ne_nil a rest)

theorem stepsSafely_enqueue_iff {s : State} {q : Message} (hm : nextMove s = .enqueue q) :
    StepsSafely s ↔ q.length ≤ Config.reqMax ∧ s.reqq.length < Config.reqqDepth := by
  by_cases hfit : q.length ≤ Config.reqMax
  · by_cases hroom : s.reqq.length < Config.reqqDepth
    · exact iff_of_true ⟨_, step_enqueue hm hfit hroom⟩ ⟨hfit, hroom⟩
    · have hfull := step_enqueue_full hm hfit (Nat.le_of_not_lt hroom)
      exact iff_of_false (not_stepsSafely_of_fault hfull) fun h => hroom h.2
  · have hlong := step_enqueue_oversized hm (Nat.lt_of_not_le hfit)
    exact iff_of_false (not_stepsSafely_of_refused hlong) fun h => hfit h.1

/-- Settles O51: move by move, the FEU's turn and reset never stop, and the host's two other moves stop exactly where
they are not enabled. -/
theorem feuNeverStops : Obligations.FeuNeverStops := by
  intro s hinv
  refine ⟨?_, ?_⟩
  · rintro (hm | hm)
    · exact stepsSafely_of_feu hinv hm
    · exact stepsSafely_of_reset hm
  · cases hm : nextMove s with
    | feu => simpa using stepsSafely_of_feu hinv hm
    | reset => simpa using stepsSafely_of_reset hm
    | take => simp [stepsSafely_take_iff hm]
    | enqueue q =>
      simp only [stepsSafely_enqueue_iff hm, not_and_or, not_le, not_lt, reduceCtorEq, false_and, false_or,
        Move.enqueue.injEq, exists_eq_left']

end Sys2Proof.Machine
end

section
/-! SUPPORT. The course of responses along the moves, what follows an error, whole runs, and several instances:
obligations of 20_memory.md, 60_exceptions.md and 70_reset_and_hazards.md about runs. -/

namespace Sys2Proof.Machine

/-! Strict FIFO (20 R50). -/

theorem serveAll_cons (q : Message) (qs : List Message) (a : BitVec 8) (c : BitVec 4) :
    serveAll (q :: qs) a c = answerTo q a c :: serveAll qs (serialTo q a c).1 (serialTo q a c).2 := by
  rw [serveAll, serve_eq]

theorem serialAfter_cons (q : Message) (qs : List Message) (a : BitVec 8) (c : BitVec 4) :
    serialAfter (q :: qs) a c = serialAfter qs (serialTo q a c).1 (serialTo q a c).2 := by
  rw [serialAfter, serve_eq]

/-- Settles O52, by the cases of a step: the FEU's step moves the head request's response from those owed to those
waiting, a take from those waiting to those taken, and an enqueue adds a request served last. -/
theorem responsesComeInRequestOrder : Obligations.ResponsesComeInRequestOrder := by
  intro s t h
  obtain ⟨hm, -, rfl⟩ | ⟨q, rest, ⟨hq, hm, -, -⟩, rfl⟩ | ⟨q, hm, -, -, rfl⟩ | ⟨a, rest, hm, hr, rfl⟩ | ⟨hm, -⟩ :=
    step_cases h <;> rw [hm]
  · exact ⟨fun _ => ⟨rfl, rfl⟩, by simp⟩
  · refine ⟨fun _ => ⟨?_, ?_⟩, by simp⟩
    · simp [State.history, hq, serveAll_cons]
    · rw [hq, serialAfter_cons]
  · refine ⟨by simp, fun q' hq' => ?_⟩
    obtain rfl := Move.enqueue.inj hq'
    simp [State.history, serveAll_append, serveAll]
  · exact ⟨fun _ => ⟨by simp [State.history, hr], rfl⟩, by simp⟩
  · exact ⟨by simp, by simp⟩

/-! Single steps of a scheduled run. -/

/-- The step of a ready FEU whose turn is scheduled. -/
theorem step_feu_cons {s : State} {q : Message} {rest : List Message} {ms : List Move}
    (hs : s.schedule = .feu :: ms) (hq : s.reqq = q :: rest) (hroom : s.rspq.length < Config.rspqDepth)
    (hfit : q.length ≤ Config.reqMax) :
    step s = .next { s with
      acc := (serialTo q s.acc s.cnt).1, cnt := (serialTo q s.acc s.cnt).2, reqq := rest,
      rspq := s.rspq ++ [answerTo q s.acc s.cnt], schedule := ms } := by
  rw [step_of_ready ⟨hq, nextMove_cons hs, hroom, hfit⟩, hs, List.tail_cons]

theorem step_take_cons {s : State} {a : Message} {rest : List Message} {ms : List Move}
    (hs : s.schedule = .take :: ms) (hr : s.rspq = a :: rest) :
    step s = .next { s with rspq := rest, taken := s.taken ++ [a], schedule := ms } := by
  rw [step_take (nextMove_cons hs) hr, hs, List.tail_cons]

theorem step_enqueue_cons {s : State} {q : Message} {ms : List Move} (hs : s.schedule = .enqueue q :: ms)
    (hfit : q.length ≤ Config.reqMax) (hroom : s.reqq.length < Config.reqqDepth) :
    step s = .next { s with reqq := s.reqq ++ [q], schedule := ms } := by
  rw [step_enqueue (nextMove_cons hs) hfit hroom, hs, List.tail_cons]

theorem nil_length_lt_rspqDepth : ([] : List Message).length < Config.rspqDepth := Nat.succ_pos _

theorem nil_length_lt_reqqDepth : ([] : List Message).length < Config.reqqDepth := Nat.succ_pos _

/-! After an error (60 R203). -/

/-- Settles O27: an error leaves the registers, so after the host has taken the code the next request is served from
those the failing one found. -/
theorem errorsChangeNothingElse : Obligations.ErrorsChangeNothingElse := by
  intro s q rest hready hne
  rw [serve_fst] at hne ⊢
  obtain ⟨⟨e, hcode⟩, hregs⟩ := serialTo_of_error hne
  obtain ⟨hlow, hhigh⟩ := errByte_range e
  have hstep : step s =
      .next { s with reqq := rest, rspq := s.rspq ++ [[errByte e]], schedule := s.schedule.tail } := by
    rw [step_of_ready hready, hregs, hcode]
  refine ⟨errByte e, hlow, hhigh, hcode, hstep, fun q' rest' later hrest hrspq hsched hfit => ?_⟩
  rw [hrest, hrspq, hsched] at hstep
  rw [runSteps_succ 2 hstep, runSteps_succ 1 (step_take_cons rfl rfl),
    runSteps_succ 0 (step_feu_cons rfl rfl nil_length_lt_rspqDepth hfit), runSteps_zero, serve_fst]
  exact ⟨_, rfl, rfl, rfl, rfl⟩

/-! Whole runs (60 R221, 70 R245, R260). -/

/-- The host sends a request, the FEU serves it and the host takes the response: three steps. -/
theorem runSteps_sendOne {s : State} {q : Message} {ms : List Move} (n : Nat) (hreqq : s.reqq = [])
    (hrspq : s.rspq = []) (hs : s.schedule = .enqueue q :: .feu :: .take :: ms) (hfit : q.length ≤ Config.reqMax) :
    runSteps (n + 3) s = runSteps n { s with
      acc := (serialTo q s.acc s.cnt).1, cnt := (serialTo q s.acc s.cnt).2, schedule := ms,
      taken := s.taken ++ [answerTo q s.acc s.cnt] } := by
  have henqueue := step_enqueue_cons hs hfit (by rw [hreqq]; exact nil_length_lt_reqqDepth)
  rw [hreqq, hrspq] at henqueue ⊢
  rw [runSteps_succ (n + 2) henqueue, runSteps_succ (n + 1) (step_feu_cons rfl rfl nil_length_lt_rspqDepth hfit),
    runSteps_succ n (step_take_cons rfl rfl)]

/-- Settles O53, by induction on the requests: each is sent, served and taken in three steps, which leave both queues
empty again. -/
theorem sendEachGetsEveryResponse : Obligations.SendEachGetsEveryResponse := by
  intro qs
  induction qs with
  | nil =>
    intro s _ hreqq hrspq hs
    have hm : nextMove s = .feu := nextMove_nil hs
    exact ⟨s, rfl, by simp [runEnded, resetAsserted, hreqq, hrspq, hm], by simp [runResult, serveAll, serialAfter]⟩
  | cons q qs ih =>
    intro s hfits hreqq hrspq hs
    obtain ⟨hfit, hrest⟩ := List.forall_mem_cons.1 hfits
    obtain ⟨t, hrun, hended, hresult⟩ := ih { s with
      acc := (serialTo q s.acc s.cnt).1, cnt := (serialTo q s.acc s.cnt).2, schedule := sendEach qs,
      taken := s.taken ++ [answerTo q s.acc s.cnt] } hrest hreqq hrspq rfl
    refine ⟨t, ?_, hended, ?_⟩
    · exact (runSteps_sendOne (3 * qs.length) hreqq hrspq hs hfit).trans hrun
    · rw [hresult, serveAll_cons, serialAfter_cons, List.append_assoc, List.singleton_append]

/-- Settles O54, by induction on the queued requests: with room left for every response each turn of the FEU serves the
head. -/
theorem feuDrainsItsRequests : Obligations.FeuDrainsItsRequests := by
  intro s
  induction hq : s.reqq generalizing s with
  | nil => exact fun _ _ _ => ⟨s, rfl, hq, by simp [serveAll], rfl⟩
  | cons q rest ih =>
    intro hs hfits hroom
    obtain ⟨hfit, hrest⟩ := List.forall_mem_cons.1 hfits
    rw [List.length_cons] at hroom ⊢
    have hstep := step_of_ready ⟨hq, nextMove_nil hs, by omega, hfit⟩
    obtain ⟨t, hrun, hempty, hrspq, hregs⟩ := ih { s with
      acc := (serialTo q s.acc s.cnt).1, cnt := (serialTo q s.acc s.cnt).2, reqq := rest,
      rspq := s.rspq ++ [answerTo q s.acc s.cnt], schedule := s.schedule.tail } rfl (congrArg List.tail hs) hrest
      (by rw [List.length_append, List.length_singleton]; omega)
    refine ⟨t, (runSteps_succ rest.length hstep).trans hrun, hempty, ?_, ?_⟩
    · rw [hrspq, serveAll_cons, List.append_assoc, List.singleton_append]
    · rw [hregs, serialAfter_cons]

/-! Several instances (60 R211). -/

/-- Settles O55: the step sets one place of the list, and an FEU's step sees no other. -/
theorem instancesAreIndependent : Obligations.InstancesAreIndependent := by
  intro k feus s t hk hstep
  obtain ⟨hlt, -⟩ := List.getElem?_eq_some_iff.1 hk
  refine ⟨feus.set k t, by simp only [stepInstance, hk, hstep], List.length_set, List.getElem?_set_self hlt,
    fun j hj => List.getElem?_set_ne (Ne.symm hj)⟩

end Sys2Proof.Machine
end

section
/-! SUPPORT. What the assembler accepts and writes, and CKSEQ and COLFRM run to their end: the obligations of
30_encoding.md about assembly. -/

namespace Sys2Proof.Machine

/-! One line, one instruction (30 R70). -/

theorem asmInstr_isSome (i : Instr) : (asmInstr i).isSome = true ↔ i.wf = true := by
  unfold asmInstr
  split <;> simp_all

theorem asmInstr_of_wf {i : Instr} (h : i.wf = true) : asmInstr i = some (.requests [encode i]) := if_pos h

/-- An operand's own check, then a check that does not depend on its value. -/
theorem isSome_bind_iff {α : Type} {o : Option α} {f : α → Option Expansion} {P : Prop}
    (h : ∀ x, (f x).isSome = true ↔ P) : (o.bind f).isSome = true ↔ o.isSome = true ∧ P := by
  cases o with
  | none => simp
  | some x => simpa using h x

/-- A line whose operands are bytes alone assembles once they are bytes. -/
theorem asmInstr_isSome_of_wf {i : Instr} (h : i.wf = true) : (asmInstr i).isSome = true ↔ True :=
  (asmInstr_isSome i).trans (iff_true_intro h)

theorem assemble_enccol_isSome (r g b : Int) :
    (assemble (.enccol r g b)).isSome = true ↔ isS16 r = true ∧ isS16 g = true ∧ isS16 b = true :=
  (asmInstr_isSome _).trans (wf_enccol_iff r g b)

theorem assemble_bldcolNamed_isSome (k : ColorKind) (r g b : Int) :
    (assemble (.bldcolNamed k r g b)).isSome = true ↔ isS16 r = true ∧ isS16 g = true ∧ isS16 b = true :=
  (asmInstr_isSome _).trans (wf_bldcol_iff _ r g b)

theorem assemble_bldcol_isSome (s r g b : Int) : (assemble (.bldcol s r g b)).isSome = true ↔
    0 ≤ s ∧ s ≤ 255 ∧ isS16 r = true ∧ isS16 g = true ∧ isS16 b = true := by
  rw [assemble, isSome_bind_iff fun s => (asmInstr_isSome _).trans (wf_bldcol_iff s r g b), asmByte_isSome, and_assoc]

theorem assemble_bldfrm_isSome (d : Int) (p : List Int) :
    (assemble (.bldfrm d p)).isSome = true ↔ 0 ≤ d ∧ d ≤ 255 ∧ ∀ v ∈ p, 0 ≤ v ∧ v ≤ 255 := by
  rw [assemble, isSome_bind_iff fun d => isSome_bind_iff fun p => asmInstr_isSome_of_wf (i := .bldfrm d p) rfl,
    asmByte_isSome, asmBytes_isSome, and_true, and_assoc]

theorem assemble_cksum_isSome (p : List Int) :
    (assemble (.cksum p)).isSome = true ↔ ∀ v ∈ p, 0 ≤ v ∧ v ≤ 255 := by
  rw [assemble, isSome_bind_iff fun p => asmInstr_isSome_of_wf (i := .cksum p) rfl, asmBytes_isSome, and_true]

theorem assemble_ckacc_isSome (b : Int) : (assemble (.ckacc b)).isSome = true ↔ 0 ≤ b ∧ b ≤ 255 := by
  rw [assemble, isSome_bind_iff fun b => asmInstr_isSome_of_wf (i := .ckacc b) rfl, asmByte_isSome, and_true]

/-- Bytes written as their own values are read back as those bytes, in every line of byte operands. -/
theorem assemble_written_bytes (d : Byte) (p : List Byte) :
    let written := p.map fun b => (b.toNat : Int)
    assemble (.bldfrm d.toNat written) = some (.requests [encode (.bldfrm d p)]) ∧
      assemble (.cksum written) = some (.requests [encode (.cksum p)]) ∧
      assemble (.ckacc d.toNat) = some (.requests [encode (.ckacc d)]) ∧
      assemble (.raw written) = some (.requests [p]) := by
  simp only [assemble, asmByte_toNat, asmBytes_toNat, Option.bind_some, Option.map_some, and_true]
  exact ⟨asmInstr_of_wf rfl, asmInstr_of_wf rfl, asmInstr_of_wf rfl⟩

/-- Settles O56: each line's operand checks, then the encoding of its instruction. -/
theorem assemblerChecksRanges : Obligations.AssemblerChecksRanges := by
  refine ⟨fun r g b => ⟨assemble_enccol_isSome r g b, fun k => assemble_bldcolNamed_isSome k r g b,
    fun s => assemble_bldcol_isSome s r g b, fun hr hg hb => ?channels⟩, assemble_bldfrm_isSome, assemble_cksum_isSome,
    assemble_ckacc_isSome, assemble_written_bytes, asmInstr_of_wf rfl, asmInstr_of_wf rfl⟩
  have hcol (k : Byte) : (Instr.bldcol k r g b).wf = true := (wf_bldcol_iff k r g b).2 ⟨hr, hg, hb⟩
  refine ⟨asmInstr_of_wf ((wf_enccol_iff r g b).2 ⟨hr, hg, hb⟩), asmInstr_of_wf (hcol 0x00),
    asmInstr_of_wf (hcol 0x01), fun s => ?_⟩
  rw [assemble, asmByte_toNat, Option.bind_some, asmInstr_of_wf (hcol s)]

/-- Settles O58: the tokens, the line and its bytes computed from the text. -/
theorem exampleLinesAssemble : Obligations.ExampleLinesAssemble := by
  refine ⟨?_, ?_, ?_, ?_, ?_⟩ <;> decide

/-! CKSEQ (30 R71, log 12). -/

theorem assemble_ckseq_isSome (p : List Int) :
    (assemble (.ckseq p)).isSome = true ↔ p.length = 8 ∧ ∀ v ∈ p, 0 ≤ v ∧ v ≤ 255 := by
  rw [← asmBytes_isSome, assemble]
  cases hq : asmBytes p with
  | none => simp
  | some q =>
    rw [← asmBytes_length hq, Option.bind_some]
    split <;> simp_all

theorem filter_writesHash_ckseq (bs : List Byte) :
    (Instr.ckrst :: bs.map Instr.ckacc).filter writesHash = .ckrst :: bs.map Instr.ckacc := by
  rw [List.filter_eq_self]
  simp [writesHash]

/-- Settles O57: the ten requests are a run of one CKRST, eight CKACC and CKFIN with nothing between, which ends in the
one-shot checksum. -/
theorem ckseqEndsInTheChecksum : Obligations.CkseqEndsInTheChecksum := by
  refine ⟨assemble_ckseq_isSome, fun bs a c hlen => ⟨?_, ?_⟩⟩
  · rw [assemble, asmBytes_toNat, Option.bind_some, if_pos hlen]
    rfl
  · obtain ⟨hlast, -, -⟩ := serialChecksumEqualsOneShot _ bs a a c c hlen (filter_writesHash_ckseq bs)
    simpa [Function.comp_def] using hlast

/-! COLFRM (30 R71). -/

theorem kindByte_eq (k : ColorKind) : (if k = .primary then 0x00 else 0x01) = kindByte k := by
  cases k <;> rfl

theorem kindByte_le_one (k : ColorKind) : (kindByte k).toNat ≤ 1 := by
  cases k <;> decide

theorem assemble_colfrm {k : ColorKind} {r g b d : Int} (h : (Instr.bldcol (kindByte k) r g b).wf = true) (h0 : 0 ≤ d)
    (h1 : d ≤ 255) : assemble (.colfrm k r g b d) =
      some (.colorFrame (encode (.bldcol (kindByte k) r g b)) (BitVec.ofInt 8 d)) := by
  rw [assemble, asmByte_of_range h0 h1, Option.bind_some, if_pos h]

theorem assemble_colfrm_of_not_wf {k : ColorKind} {r g b : Int} (d : Int)
    (h : ¬ (Instr.bldcol (kindByte k) r g b).wf = true) : assemble (.colfrm k r g b d) = none := by
  simp only [assemble, if_neg h]
  cases asmByte d <;> rfl

theorem assemble_colfrm_of_not_byte {k : ColorKind} {r g b d : Int} (h : d < 0 ∨ 0xFF < d) :
    assemble (.colfrm k r g b d) = none := by
  have hnone : asmByte d = none := if_neg (by omega)
  rw [assemble, hnone, Option.bind_none]

theorem colorFrameSecond_ok (d : Byte) {p : List Byte} (h : p.length = 8) :
    colorFrameSecond d (0x00 :: p) = some (encode (.bldfrm d p)) := if_pos ⟨rfl, h⟩

/-- COLFRM's first request is answered with its colour payload, and the second is that payload's BLDFRM. -/
theorem colfrm_first_response {k : ColorKind} {r g b : Int} (h : (Instr.bldcol (kindByte k) r g b).wf = true)
    (d : Byte) (a : BitVec 8) (c : BitVec 4) : ∃ payload, buildColor (kindByte k) r g b = .ok payload ∧
      (serve (encode (.bldcol (kindByte k) r g b)) a c).1 = 0x00 :: payload ∧
      colorFrameSecond d (0x00 :: payload) = some (encode (.bldfrm d payload)) ∧
      payload.length = 8 ∧ AllSevenBit payload := by
  obtain ⟨payload, hbuild⟩ : ∃ p, buildColor (kindByte k) r g b = .ok p := ⟨_, buildColor_ok r g b (kindByte_le_one k)⟩
  obtain ⟨hlen, -, -, -, -, -, hseven, -⟩ := colourPayloadShape _ r g b _ hbuild
  refine ⟨payload, hbuild, ?_, colorFrameSecond_ok d hlen, hlen, hseven⟩
  rw [serve_of_decode_ok (decodeOfEncode _ h), answer, hbuild]
  rfl

theorem ofInt_byte_toNat {d : Int} (h0 : 0 ≤ d) (h1 : d ≤ 255) : ((BitVec.ofInt 8 d).toNat : Int) = d := by
  rw [BitVec.toNat_ofInt]
  omega

/-- Settles O48: the payload is eight seven-bit bytes, so with a device id in range the frame passes every check. -/
theorem colfrmFramesForDeviceInRange : Obligations.ColfrmFramesForDeviceInRange := by
  intro k r g b d a c
  simp only [kindByte_eq]
  refine ⟨fun hr hg hb h0 h1 => ?_, fun h => assemble_colfrm_of_not_wf d fun hwf => h ((wf_bldcol_iff _ r g b).1 hwf)⟩
  have hwf : (Instr.bldcol (kindByte k) r g b).wf = true := (wf_bldcol_iff _ r g b).2 ⟨hr, hg, hb⟩
  have hid := ofInt_byte_toNat h0 (by omega)
  have hd : (BitVec.ofInt 8 d).toNat ≤ 0x7F := by omega
  obtain ⟨payload, hbuild, hfirst, hsecond, hlen, hseven⟩ := colfrm_first_response hwf (BitVec.ofInt 8 d) a c
  refine ⟨payload, frameBytes (BitVec.ofInt 8 d) payload, assemble_colfrm hwf h0 (by omega), hbuild, hfirst,
    by rw [hfirst, hsecond], ?_, frameBytes_isFrame hlen hd hseven, frameBytes_payload _ hlen, ?_⟩
  · exact (serve_bldfrm _ payload a c).trans (congrArg resultResponse (buildFrame_ok hlen hd hseven))
  · rw [frameBytes_devid, low7_of_le hd, hid]

/-- Settles O59: the first request does not see the device id, and the second's device check comes before anything a
payload could fail. -/
theorem colfrmOutOfRangeDevice : Obligations.ColfrmOutOfRangeDevice := by
  intro k r g b d a c
  simp only [kindByte_eq]
  refine fun hr hg hb => ⟨fun h0 h1 => ?_, assemble_colfrm_of_not_byte⟩
  have hwf : (Instr.bldcol (kindByte k) r g b).wf = true := (wf_bldcol_iff _ r g b).2 ⟨hr, hg, hb⟩
  have hid := ofInt_byte_toNat (by omega) h1
  have hd : 0x7F < (BitVec.ofInt 8 d).toNat := by omega
  obtain ⟨payload, hbuild, hfirst, hsecond, hlen, -⟩ := colfrm_first_response hwf (BitVec.ofInt 8 d) a c
  refine ⟨payload, assemble_colfrm hwf (by omega) h1, hbuild, hfirst, by rw [hfirst, hsecond], ?_⟩
  exact (serve_bldfrm _ payload a c).trans (congrArg resultResponse (buildFrame_eDevid .reject hlen hd))

end Sys2Proof.Machine
end
